-- ==== Sys2Proof/Word.lean ====
section
/-! DEFINITION. The word types of the core: bytes, 16-bit words, register numbers, and the plain bit constants built on them. -/

namespace Sys2Proof

/-- A byte: the unit of memory, a general register, an immediate `kk` (rules R10, R30, R51). -/
abbrev Byte := BitVec 8

/-- A 16-bit word: an instruction word, I, PC, a stack slot (rules R12, R13, R14, R50). -/
abbrev Word := BitVec 16

/-- A 12-bit operand `nnn` (rule R51). -/
abbrev Addr := BitVec 12

/-- The number of a general register: the 4-bit field `x` or `y` selects `V[x]` or `V[y]` directly (rule R10). -/
abbrev Reg := Fin 16

/-- The height field `n` of DRW, a row count 0 to 15 (rule R53). -/
abbrev Height := Fin 16

/-- The framebuffer as the flat bit sequence of rule R18: pixel (row, col) is bit `row*64 + col`. -/
abbrev Pixels := BitVec 2048

/-- VF is `V[15]` (rule R10). -/
abbrev vf : Reg := 15

/-- V0 is `V[0]` (rule R10). -/
abbrev v0 : Reg := 0

end Sys2Proof
end

