-- ==== Sys2Proof/Config.lean ====
section
/-! DEFINITION. The implementation parameters of rule R5 that the model carries by name, and the one free value, the random input. -/

namespace Sys2Proof.Config

/-- MEM_SIZE: addresses 0x000 to 0xFFF (rules R5, R30). -/
abbrev memSize : Nat := 4096

/-- PROG_BASE: where `load_program` copies its first byte, and the reset value of PC (rules R5, R112). -/
abbrev progBase : Nat := 0x200

/-- STACK_CAP: entries of the return-address stack (rules R5, R14). -/
abbrev stackCap : Nat := 16

/-- SCREEN_W (rules R5, R18). -/
abbrev screenW : Nat := 64

/-- SCREEN_H (rules R5, R18). -/
abbrev screenH : Nat := 32

/-- DIRTY_AT_RESET with the value the spec gives it (rules R5, R25; the spec's decision D14; log 7). -/
abbrev dirtyAtReset : Bool := true

/-- DESIGN CHOICE (log 1). The byte on the input `rand_in` at the RND that finds `k` RNDs run before it.
A free value: it has no body, so nothing is known of it, and a claim about it holds for every byte
(rules R21, R83, R119: "any of the 256 values may appear at any RND"). -/
opaque randIn : Nat → Byte

end Sys2Proof.Config
end

