-- ==== Sys2Proof/Syntax.lean ====
section
/-! DEFINITION. The instruction set: one constructor for each of the 23 rows of spec/opcode_table.json (rules R4, R54). -/

namespace Sys2Proof

/-- An instruction with its operand fields (rules R51 to R53). Every field's type has exactly the values its
bits can encode. The ignored low nibble of 5XY- and 9XY- is no operand (rule R57, log 11); the `y` of SHR
and SHL is encoded and ignored by the hardware (rule R58), so it is kept here and not used by their meanings. -/
inductive Instr where
  /-- CLS: clear screen (rule R100). -/
  | cls
  /-- RET: return from subroutine (rule R70). -/
  | ret
  /-- JP addr: jump (rule R71). -/
  | jp (nnn : Addr)
  /-- CALL addr: call subroutine (rule R72). -/
  | call (nnn : Addr)
  /-- SE Vx, byte: skip if register equals immediate (rule R75). -/
  | seByte (x : Reg) (kk : Byte)
  /-- SNE Vx, byte: skip if register differs from immediate (rule R76). -/
  | sneByte (x : Reg) (kk : Byte)
  /-- SE Vx, Vy: skip if two registers are equal (rule R77). -/
  | seReg (x y : Reg)
  /-- LD Vx, byte: load immediate (rule R80). -/
  | ldByte (x : Reg) (kk : Byte)
  /-- ADD Vx, byte: add immediate (rule R81). -/
  | addByte (x : Reg) (kk : Byte)
  /-- LD Vx, Vy: move (rule R85). -/
  | ldReg (x y : Reg)
  /-- OR Vx, Vy (rule R86). -/
  | orReg (x y : Reg)
  /-- AND Vx, Vy (rule R87). -/
  | andReg (x y : Reg)
  /-- XOR Vx, Vy (rule R88). -/
  | xorReg (x y : Reg)
  /-- ADD Vx, Vy: add with carry flag (rule R89). -/
  | addReg (x y : Reg)
  /-- SUB Vx, Vy: subtract with no-borrow flag (rule R90). -/
  | sub (x y : Reg)
  /-- SHR Vx {, Vy}: shift right by one (rule R91). -/
  | shr (x y : Reg)
  /-- SUBN Vx, Vy: reverse subtract with no-borrow flag (rule R92). -/
  | subn (x y : Reg)
  /-- SHL Vx {, Vy}: shift left by one (rule R93). -/
  | shl (x y : Reg)
  /-- SNE Vx, Vy: skip if two registers differ (rule R78). -/
  | sneReg (x y : Reg)
  /-- LD I, addr: load index (rule R82). -/
  | ldI (nnn : Addr)
  /-- JP V0, addr: jump with offset (rule R73). -/
  | jpV0 (nnn : Addr)
  /-- RND Vx, byte: random AND mask (rule R83). -/
  | rnd (x : Reg) (kk : Byte)
  /-- DRW Vx, Vy, nibble: draw sprite (rule R101). -/
  | drw (x y : Reg) (n : Height)
  deriving DecidableEq, Repr

/-- The row of spec/opcode_table.json an instruction belongs to, by its mnemonic. -/
def Instr.mnemonic : Instr → String
  | .cls => "CLS"
  | .ret => "RET"
  | .jp _ => "JP_addr"
  | .call _ => "CALL_addr"
  | .seByte _ _ => "SE_Vx__byte"
  | .sneByte _ _ => "SNE_Vx__byte"
  | .seReg _ _ => "SE_Vx__Vy"
  | .ldByte _ _ => "LD_Vx__byte"
  | .addByte _ _ => "ADD_Vx__byte"
  | .ldReg _ _ => "LD_Vx__Vy"
  | .orReg _ _ => "OR_Vx__Vy"
  | .andReg _ _ => "AND_Vx__Vy"
  | .xorReg _ _ => "XOR_Vx__Vy"
  | .addReg _ _ => "ADD_Vx__Vy"
  | .sub _ _ => "SUB_Vx__Vy"
  | .shr _ _ => "SHR_Vx____Vy"
  | .subn _ _ => "SUBN_Vx__Vy"
  | .shl _ _ => "SHL_Vx____Vy"
  | .sneReg _ _ => "SNE_Vx__Vy"
  | .ldI _ => "LD_I__addr"
  | .jpV0 _ => "JP_V0__addr"
  | .rnd _ _ => "RND_Vx__byte"
  | .drw _ _ _ => "DRW_Vx__Vy__nibble"

end Sys2Proof
end

