-- ==== Sys2Proof/WellFormed.lean ====
section
/-! DEFINITION. What is well formed before the machine runs it: an instruction word (the opcode map of rule R54, row by
row, as mask and match) and a program image (the extent of rule R112). An `Instr` needs no check of its own: each of
its fields has exactly the values its bits can encode (rule R53). -/

namespace Sys2Proof

/-- A row of the opcode map: a word `w` selects it when `(w & mask) == match` (rule R54). -/
structure OpcodeRow where
  mnemonic : String
  mask : Word
  fixed : Word
  deriving DecidableEq, Repr

/-- `(w & mask) == match` (rule R54). -/
def OpcodeRow.selects (r : OpcodeRow) (w : Word) : Bool := (w &&& r.mask) == r.fixed

/-- The 23 instruction rows of rule R54, in the table's order. -/
def opcodeRows : List OpcodeRow :=
  [⟨"CLS", 0xFFFF, 0x00E0⟩, ⟨"RET", 0xFFFF, 0x00EE⟩, ⟨"JP_addr", 0xF000, 0x1000⟩,
   ⟨"CALL_addr", 0xF000, 0x2000⟩, ⟨"SE_Vx__byte", 0xF000, 0x3000⟩, ⟨"SNE_Vx__byte", 0xF000, 0x4000⟩,
   ⟨"SE_Vx__Vy", 0xF000, 0x5000⟩, ⟨"LD_Vx__byte", 0xF000, 0x6000⟩, ⟨"ADD_Vx__byte", 0xF000, 0x7000⟩]
  ++
  [⟨"LD_Vx__Vy", 0xF00F, 0x8000⟩, ⟨"OR_Vx__Vy", 0xF00F, 0x8001⟩, ⟨"AND_Vx__Vy", 0xF00F, 0x8002⟩,
   ⟨"XOR_Vx__Vy", 0xF00F, 0x8003⟩, ⟨"ADD_Vx__Vy", 0xF00F, 0x8004⟩, ⟨"SUB_Vx__Vy", 0xF00F, 0x8005⟩,
   ⟨"SHR_Vx____Vy", 0xF00F, 0x8006⟩, ⟨"SUBN_Vx__Vy", 0xF00F, 0x8007⟩, ⟨"SHL_Vx____Vy", 0xF00F, 0x800E⟩]
  ++
  [⟨"SNE_Vx__Vy", 0xF000, 0x9000⟩, ⟨"LD_I__addr", 0xF000, 0xA000⟩, ⟨"JP_V0__addr", 0xF000, 0xB000⟩,
   ⟨"RND_Vx__byte", 0xF000, 0xC000⟩, ⟨"DRW_Vx__Vy__nibble", 0xF000, 0xD000⟩]

/-- The rows a word selects: one for an instruction word, none for an illegal word (rules R54, R59). -/
def rowsOf (w : Word) : List OpcodeRow := opcodeRows.filter (·.selects w)

/-- A word is well formed when some row of the opcode map matches it (rule R54). -/
def wordWellFormed (w : Word) : Bool := opcodeRows.any (·.selects w)

/-- A program image is well formed when it fits memory from 0x200 on (rule R112). -/
def imageWellFormed (bytes : List Byte) : Bool :=
  decide (bytes.length + Config.progBase ≤ Config.memSize)

end Sys2Proof
end

