-- ==== Sys2Proof/Decode.lean ====
section
/-! DEFINITION. Decoding an instruction word (rules R50 to R60, R62), total on any bytes and rejecting by name; and the
encoder, written from the same encodings (rules R52, R54, R65), with the assembler syntax (rules R65, R66). -/

namespace Sys2Proof

/-- Why a word is no instruction. The machine reports each of the first four as DecodeError (rules R59, R126); the names
are the model's (log 15). -/
inductive Reject where
  /-- Family 0x0, neither 0x00E0 nor 0x00EE (rule R55). -/
  | familyZero
  /-- Family 0x8 with low nibble 0x8 to 0xD or 0xF (rule R56). -/
  | familyEight
  /-- Family 0xE, the key-input family (rule R60). -/
  | keyInputFamily
  /-- Family 0xF, the timer, BCD and register-dump family (rule R60). -/
  | timerFamily
  /-- Fewer than two bytes were given; a fetch always gives two (rule R61), so no step meets this. -/
  | truncated
  deriving DecidableEq, Repr

/-- `op = w[15:12]` (rule R51). -/
def opField (w : Word) : BitVec 4 := w.extractLsb' 12 4

/-- `x = w[11:8]`, a register number (rule R51). -/
def xField (w : Word) : Reg := (w.extractLsb' 8 4).toFin

/-- `y = w[7:4]`, a register number (rule R51). -/
def yField (w : Word) : Reg := (w.extractLsb' 4 4).toFin

/-- `n = w[3:0]` (rule R51). -/
def nField (w : Word) : Height := (w.extractLsb' 0 4).toFin

/-- `kk = w[7:0]` (rule R51). -/
def kkField (w : Word) : Byte := w.extractLsb' 0 8

/-- `nnn = w[11:0]` (rule R51). -/
def nnnField (w : Word) : Addr := w.extractLsb' 0 12

/-- Family 0x0: only the exact words 0x00E0 and 0x00EE are instructions (rule R55). -/
def decodeFamilyZero (w : Word) : Except Reject Instr :=
  if w = 0x00E0 then .ok .cls
  else if w = 0x00EE then .ok .ret
  else .error .familyZero

/-- Family 0x8: secondary dispatch on the low nibble, nine members (rule R56). -/
def decodeFamilyEight (w : Word) : Except Reject Instr :=
  match (nField w).val with
  | 0x0 => .ok (.ldReg (xField w) (yField w))
  | 0x1 => .ok (.orReg (xField w) (yField w))
  | 0x2 => .ok (.andReg (xField w) (yField w))
  | 0x3 => .ok (.xorReg (xField w) (yField w))
  | 0x4 => .ok (.addReg (xField w) (yField w))
  | 0x5 => .ok (.sub (xField w) (yField w))
  | 0x6 => .ok (.shr (xField w) (yField w))
  | 0x7 => .ok (.subn (xField w) (yField w))
  | 0xE => .ok (.shl (xField w) (yField w))
  | _ => .error .familyEight

/-- DECODE: primary dispatch on the top nibble (rules R54, R62). The last case is the one value left of the
four bits, 0xF. -/
def decodeWord (w : Word) : Except Reject Instr :=
  match (opField w).toNat with
  | 0x0 => decodeFamilyZero w
  | 0x1 => .ok (.jp (nnnField w))
  | 0x2 => .ok (.call (nnnField w))
  | 0x3 => .ok (.seByte (xField w) (kkField w))
  | 0x4 => .ok (.sneByte (xField w) (kkField w))
  | 0x5 => .ok (.seReg (xField w) (yField w))
  | 0x6 => .ok (.ldByte (xField w) (kkField w))
  | 0x7 => .ok (.addByte (xField w) (kkField w))
  | 0x8 => decodeFamilyEight w
  | 0x9 => .ok (.sneReg (xField w) (yField w))
  | 0xA => .ok (.ldI (nnnField w))
  | 0xB => .ok (.jpV0 (nnnField w))
  | 0xC => .ok (.rnd (xField w) (kkField w))
  | 0xD => .ok (.drw (xField w) (yField w) (nField w))
  | 0xE => .error .keyInputFamily
  | _ => .error .timerFamily

/-- The byte at the lower address is bits 15 to 8 of the instruction word (rule R34). -/
def wordOfBytes (hi lo : Byte) : Word := hi ++ lo

/-- The two bytes of a word as they lie in memory, high byte first (rule R34). -/
def bytesOfWord (w : Word) : List Byte := [w.extractLsb' 8 8, w.extractLsb' 0 8]

/-- Decoding the instruction at the head of a byte string, with the bytes that follow it. -/
def decode : List Byte → Except Reject (Instr × List Byte)
  | hi :: lo :: rest => (decodeWord (wordOfBytes hi lo)).map fun i => (i, rest)
  | [] => .error .truncated
  | [_] => .error .truncated

/-- Format A: `oooo nnnn nnnn nnnn` (rule R52). -/
def formatA (op : BitVec 4) (nnn : Addr) : Word := op ++ nnn

/-- Format XK: `oooo xxxx kkkk kkkk` (rule R52). -/
def formatXK (op : BitVec 4) (x : Reg) (kk : Byte) : Word := op ++ (BitVec.ofFin x : BitVec 4) ++ kk

/-- Formats XY and XYN: `oooo xxxx yyyy ssss`, the low nibble a selector or the height (rule R52). -/
def formatXYN (op : BitVec 4) (x y : Reg) (n : BitVec 4) : Word :=
  op ++ (BitVec.ofFin x : BitVec 4) ++ (BitVec.ofFin y : BitVec 4) ++ n

/-- The word of an instruction, in its canonical encoding (rules R54, R57, R65). -/
def encode : Instr → Word
  | .cls => 0x00E0
  | .ret => 0x00EE
  | .jp nnn => formatA 0x1 nnn
  | .call nnn => formatA 0x2 nnn
  | .seByte x kk => formatXK 0x3 x kk
  | .sneByte x kk => formatXK 0x4 x kk
  | .seReg x y => formatXYN 0x5 x y 0x0
  | .ldByte x kk => formatXK 0x6 x kk
  | .addByte x kk => formatXK 0x7 x kk
  | .ldReg x y => formatXYN 0x8 x y 0x0
  | .orReg x y => formatXYN 0x8 x y 0x1
  | .andReg x y => formatXYN 0x8 x y 0x2
  | .xorReg x y => formatXYN 0x8 x y 0x3
  | .addReg x y => formatXYN 0x8 x y 0x4
  | .sub x y => formatXYN 0x8 x y 0x5
  | .shr x y => formatXYN 0x8 x y 0x6
  | .subn x y => formatXYN 0x8 x y 0x7
  | .shl x y => formatXYN 0x8 x y 0xE
  | .sneReg x y => formatXYN 0x9 x y 0x0
  | .ldI nnn => formatA 0xA nnn
  | .jpV0 nnn => formatA 0xB nnn
  | .rnd x kk => formatXK 0xC x kk
  | .drw x y n => formatXYN 0xD x y (BitVec.ofFin n)

/-- The bytes of an instruction as they lie in memory (rules R34, R50). -/
def encodeBytes (i : Instr) : List Byte := bytesOfWord (encode i)

/-- A hexadecimal digit as the listings write it. -/
def hexDigit (d : Nat) : Char := ['0', '1', '2', '3', '4', '5', '6', '7', '8', '9', 'A', 'B', 'C', 'D', 'E', 'F'].getD d '0'

/-- The low `k` hexadecimal digits of a number. -/
def hexDigits : Nat → Nat → List Char
  | 0, _ => []
  | k + 1, v => hexDigits k (v / 16) ++ [hexDigit (v % 16)]

/-- A constant as the listings write it, `0x` and its digits (rule R65). -/
def hexText (k v : Nat) : String := "0x" ++ String.ofList (hexDigits k v)

/-- A register as the listings write it, `V0` to `VF` (rule R65). -/
def regText (r : Reg) : String := "V" ++ String.ofList [hexDigit r.val]

/-- The register and immediate operands (rule R65). -/
def xkText (m : String) (x : Reg) (kk : Byte) : String := m ++ " " ++ regText x ++ ", " ++ hexText 2 kk.toNat

/-- The two register operands (rule R65). -/
def xyText (m : String) (x y : Reg) : String := m ++ " " ++ regText x ++ ", " ++ regText y

/-- A row count, 0 to 15, in decimal (rule R65). -/
def nibbleText (n : Height) : String :=
  String.ofList (if n.val < 10 then [hexDigit n.val] else ['1', hexDigit (n.val - 10)])

/-- An instruction in the assembler syntax of rule R65 (the spec's D21). -/
def assembly : Instr → String
  | .cls => "CLS"
  | .ret => "RET"
  | .jp nnn => "JP " ++ hexText 3 nnn.toNat
  | .call nnn => "CALL " ++ hexText 3 nnn.toNat
  | .seByte x kk => xkText "SE" x kk
  | .sneByte x kk => xkText "SNE" x kk
  | .seReg x y => xyText "SE" x y
  | .ldByte x kk => xkText "LD" x kk
  | .addByte x kk => xkText "ADD" x kk
  | .ldReg x y => xyText "LD" x y
  | .orReg x y => xyText "OR" x y
  | .andReg x y => xyText "AND" x y
  | .xorReg x y => xyText "XOR" x y
  | .addReg x y => xyText "ADD" x y
  | .sub x y => xyText "SUB" x y
  | .shr x y => xyText "SHR" x y
  | .subn x y => xyText "SUBN" x y
  | .shl x y => xyText "SHL" x y
  | .sneReg x y => xyText "SNE" x y
  | .ldI nnn => "LD I, " ++ hexText 3 nnn.toNat
  | .jpV0 nnn => "JP V0, " ++ hexText 3 nnn.toNat
  | .rnd x kk => xkText "RND" x kk
  | .drw x y n => xyText "DRW" x y ++ ", " ++ nibbleText n

/-- A line of a listing: an instruction, or a `DB` directive of literal bytes (rules R65, R66). -/
inductive Line where
  | instr (i : Instr)
  | db (bytes : List Byte)
  deriving DecidableEq, Repr

/-- The bytes a line assembles to; an instruction line gives exactly one word (rule R66). -/
def lineBytes : Line → List Byte
  | .instr i => encodeBytes i
  | .db bytes => bytes

/-- The program image of a listing (rules R65, R66, R147). -/
def assemble (lines : List Line) : List Byte := lines.flatMap lineBytes

/-- The 16-bit word that `nbits` bits numbered as spec/opcode_table.json numbers them stand for; every bit from `nbits`
on is 0 (log 17). -/
def tableWord (nbits w : Nat) : Word := BitVec.ofNat 16 (w % 2 ^ nbits)

/-- The instruction the decoder reads from a word of the opcode table laid out in memory (log 17). -/
def decodeTableWord (nbits w : Nat) : Option Instr :=
  match decode (bytesOfWord (tableWord nbits w)) with
  | .ok (i, _) => some i
  | .error _ => none

end Sys2Proof
end

