-- ==== Sys2Proof/Machine/State.lean ====
section
/-! DEFINITION. The architectural state (file 10_state.md, rule R25's table), the reasons a transaction can stop, and the
state after reset. -/

namespace Sys2Proof.Machine

/-- Memory as the bytes that differ from their reset contents: address and byte, addresses rising (log 9). Which byte an
unlisted address reads as, and the form that makes equal memories equal lists, are in Machine/Ops.lean. -/
abbrev Memory := List Host.Cell

/-- The error kinds of rule R125. Each is the status of one transaction and leaves the state as it was (rule R131). -/
inductive Fault where
  /-- Raised by `step` in DECODE for an illegal word (rules R59, R126). The spec's own fault: safe. -/
  | decodeError
  /-- Raised by CALL when SP = 16 (rules R72, R127). The spec's own fault: safe. -/
  | stackOverflow
  /-- Raised by RET when SP = 0 (rules R70, R128). The spec's own fault: safe. -/
  | stackUnderflow
  /-- Raised by DRW when `(I mod 4096) + n > 4096` (rules R37, R101, R129). The spec's own fault: safe. -/
  | addressOutOfRange
  /-- Raised by `load_program` when `len + 0x200 > 4096` (rules R112, R130), never by `step`. The spec's own fault: safe. -/
  | outOfBounds
  deriving DecidableEq, Repr

/-- Why the model would give an instruction no meaning. -/
inductive Refusal where
  /-- Raised by an arm of `exec` for an instruction without a meaning yet; no arm raises it. Safe: nothing can be proved of
  a run that stops so. -/
  | notModelled (mnemonic : String)
  deriving DecidableEq, Repr

/-- The state of the core (rules R10 to R19, R25). The FSM phase, IR and the DRW counters are internal to a step and no
state (rule R20, log 4). -/
structure State where
  /-- V0 to VF, 8 bits each (rule R10). -/
  v : Vector Byte 16
  /-- The index register I (rule R12). -/
  i : Word
  /-- The program counter PC (rule R13). -/
  pc : Word
  /-- The stack pointer SP, 0 to 16 (rule R14, log 8). -/
  sp : Fin 17
  /-- Stack[0] to Stack[15], stale slots included (rules R14, R16). -/
  stack : Vector Word 16
  /-- Mem (rule R17). -/
  mem : Memory
  /-- FB, pixel (row, col) at flat bit `row*64 + col` (rule R18). -/
  fb : Pixels
  /-- Dirty (rule R19). -/
  dirty : Bool
  /-- The MODEL's own field (log 1): how many RNDs have run; it picks the free value on `rand_in`. -/
  draws : Nat
  deriving DecidableEq, Repr

/-- The machine right after `construct` (rules R25, R111). `draws := 0` is a DESIGN CHOICE (log 1). -/
def State.reset : State where
  v := Vector.replicate 16 0
  i := 0
  pc := 0x0200
  sp := 0
  stack := Vector.replicate 16 0
  mem := []
  fb := 0
  dirty := Config.dirtyAtReset
  draws := 0

end Sys2Proof.Machine
end

