-- ==== Sys2Proof/Machine/Ops.lean ====
section
/-! DEFINITION. The named operations over the state: registers, program counter, stack, memory, framebuffer, the random
input, and raising an error. -/

namespace Sys2Proof.Machine

/-! ### Memory -/

/-- GLYPH_TABLE: the 80 bytes of rule R33, digit `d` at `5*d` (log 6). -/
def glyphTable : List Byte :=
  [0xF0, 0x90, 0x90, 0x90, 0xF0, 0x20, 0x60, 0x20, 0x20, 0x70,
   0xF0, 0x10, 0xF0, 0x80, 0xF0, 0xF0, 0x10, 0xF0, 0x10, 0xF0]
  ++
  [0x90, 0x90, 0xF0, 0x10, 0x10, 0xF0, 0x80, 0xF0, 0x10, 0xF0,
   0xF0, 0x80, 0xF0, 0x90, 0xF0, 0xF0, 0x10, 0x20, 0x40, 0x40]
  ++
  [0xF0, 0x90, 0xF0, 0x90, 0xF0, 0xF0, 0x90, 0xF0, 0x10, 0xF0,
   0xF0, 0x90, 0xF0, 0x90, 0x90, 0xE0, 0x90, 0xE0, 0x90, 0xE0]
  ++
  [0xF0, 0x80, 0x80, 0x80, 0xF0, 0xE0, 0x90, 0x90, 0x90, 0xE0,
   0xF0, 0x80, 0xF0, 0x80, 0xF0, 0xF0, 0x80, 0xF0, 0x80, 0x80]

/-- What an address reads as while nothing has been loaded there: the glyph table at 0x000 to 0x04F, zero elsewhere
(rules R25, R32). -/
def resetByte (a : Nat) : Byte := glyphTable.getD a 0

/-- The byte a memory holds at an address (rule R30). -/
def Memory.read : Memory → Nat → Byte
  | [], a => resetByte a
  | (k, b) :: m, a => if a = k then b else Memory.read m a

/-- Put one byte at an address, keeping the canonical form: rising addresses, no byte equal to its reset contents. -/
def Memory.write : Memory → Nat → Byte → Memory
  | [], a, b => if b = resetByte a then [] else [(a, b)]
  | (k, c) :: m, a, b =>
    if a < k then
      if b = resetByte a then (k, c) :: m else (a, b) :: (k, c) :: m
    else if a = k then
      if b = resetByte a then m else (a, b) :: m
    else (k, c) :: Memory.write m a b

/-- The canonical form (log 9): addresses strictly rising and inside 0x000 to 0xFFF, no byte equal to what its address
reads as unlisted. -/
abbrev Memory.wf (m : Memory) : Prop :=
  m.Pairwise (fun c d => c.1 < d.1) ∧ ∀ c ∈ m, c.1 < Config.memSize ∧ c.2 ≠ resetByte c.1

/-- `addr mod 4096`: the address of a memory access (rule R31). -/
def maskAddr (a : Nat) : Nat := a % Config.memSize

/-- `MemRead(addr, 1) = Mem[addr mod 4096]` (rules R6, R31). -/
def memRead (s : State) (a : Nat) : Byte := s.mem.read (maskAddr a)

/-- `MemWrite(addr, 1, b)` (rule R6); no instruction uses it (rule R38). -/
def memWrite (s : State) (a : Nat) (b : Byte) : State :=
  { s with mem := s.mem.write (maskAddr a) b }

/-- Copy bytes to consecutive addresses, in address order (rule R112). -/
def memCopy (s : State) : Nat → List Byte → State
  | _, [] => s
  | a, b :: bs => memCopy (memWrite s a b) (a + 1) bs

/-- FETCH: the word at an address, high byte first, each byte's address masked on its own (rules R34, R35, R61). -/
def fetchWord (s : State) (pc : Word) : Word :=
  wordOfBytes (memRead s pc.toNat) (memRead s (pc.toNat + 1))

/-! ### Registers and program counter -/

/-- `V[r]` (rule R10). -/
def readV (s : State) (r : Reg) : Byte := s.v[r]

/-- `V[r] <- b` (rule R10). -/
def writeV (s : State) (r : Reg) (b : Byte) : State := { s with v := s.v.set r b }

/-- `I <- a` (rule R12). -/
def writeI (s : State) (a : Word) : State := { s with i := a }

/-- `PC <- a`; PC is never masked when written (rule R13). -/
def setPc (s : State) (a : Word) : State := { s with pc := a }

/-- `PC <- (PC + 2) mod 65536` (rules R13, R64). -/
def advance (s : State) : State := setPc s (s.pc + 2)

/-- The PC update of a conditional skip: 4 when the condition holds, else 2 (rules R13, R64). -/
def skipIf (c : Bool) (s : State) : State := if c then setPc s (s.pc + 4) else setPc s (s.pc + 2)

/-! ### Stack -/

/-- `Push(a)` (rule R15); none is StackOverflow. -/
def push (s : State) (a : Word) : Option State :=
  if h : s.sp.val = Config.stackCap then none
  else some { s with
    stack := s.stack.set s.sp.val a (by have := s.sp.isLt; simp only [Config.stackCap] at h; omega)
    sp := ⟨s.sp.val + 1, by have := s.sp.isLt; simp only [Config.stackCap] at h; omega⟩ }

/-- `Pop()` (rule R16): the state with SP one lower and the popped address; the slot keeps its value. None is
StackUnderflow. -/
def pop (s : State) : Option (State × Word) :=
  if h : s.sp.val = 0 then none
  else some ({ s with sp := ⟨s.sp.val - 1, by have := s.sp.isLt; omega⟩ },
    s.stack[s.sp.val - 1]'(by have := s.sp.isLt; omega))

/-! ### Framebuffer -/

/-- The flat bit of pixel (row, col) (rule R18). -/
def pixelIndex (row col : Nat) : Nat := row * Config.screenW + col

/-- `FB[row][col]` (rule R18). -/
def pixel (fb : Pixels) (row col : Nat) : Bool := fb.getLsbD (pixelIndex row col)

/-- `FB[row][col] <- FB[row][col] ^ 1` (rule R101). -/
def togglePixel (fb : Pixels) (row col : Nat) : Pixels := fb ^^^ BitVec.twoPow 2048 (pixelIndex row col)

/-- Replace the framebuffer and set Dirty, as every CLS and every completed DRW does (rule R19). -/
def showPixels (s : State) (fb : Pixels) : State := { s with fb := fb, dirty := true }

/-- `Dirty <- 0` (rule R114). -/
def clearDirty (s : State) : State := { s with dirty := false }

/-! ### The random input -/

/-- The byte on `rand_in` when the next RND executes: a free value (rules R83, R119, log 1). -/
def randIn (s : State) : Byte := Config.randIn s.draws

/-- The input is sampled once by RND and at no other time (rule R119): the next RND finds another free value. -/
def nextDraw (s : State) : State := { s with draws := s.draws + 1 }

/-! ### Raising an error -/

/-- `raise <Kind>`: the transaction ends at once with the kind as its status. There is no trap entry: nothing is saved, no
mode changes, control goes nowhere, and every piece of state is as before (rules R6, R131, R135). -/
def raise (k : Fault) : Host.Outcome State Fault Refusal := .fault k

end Sys2Proof.Machine
end

