-- ==== Sys2Proof/Machine/Operands.lean ====
section
/-! DEFINITION. The operand forms (rule R53): the 12-bit address operand, the jump offset, the sprite's rows and
coordinates. Register operands are `readV`; an immediate `kk` is used as it stands. -/

namespace Sys2Proof.Machine

/-- `zext_16(nnn)`: the address operand written to PC or I (rules R53, R71, R82). -/
def zextAddr (nnn : Addr) : Word := nnn.zeroExtend 16

/-- `nnn + V[0]` as unsigned integers, at most 0x10FE (rules R53, R73). -/
def jumpOffset (nnn : Addr) (b : Byte) : Word := BitVec.ofNat 16 (nnn.toNat + b.toNat)

/-- The base of the sprite read, `I mod 4096` (rule R37). -/
def spriteBase (s : State) : Nat := maskAddr s.i.toNat

/-- The extent check of rule R37: the rows `base` to `base + n - 1` lie inside memory. -/
def spriteInRange (s : State) (n : Height) : Bool := decide (spriteBase s + n.val ≤ Config.memSize)

/-- `[ Mem[base + r] for r = 0 .. n-1 ]` (rule R37). -/
def spriteRows (s : State) (n : Height) : List Byte :=
  (List.range n.val).map fun r => memRead s (spriteBase s + r)

/-- `(vy + r) mod 32`: the row a sprite row lands on (rule R45). -/
def targetRow (vy : Byte) (r : Nat) : Nat := (vy.toNat + r) % Config.screenH

/-- `(vx + c) mod 64`: the column a sprite bit lands on (rule R45). -/
def targetCol (vx : Byte) (c : Nat) : Nat := (vx.toNat + c) % Config.screenW

/-- Bit 7 of a row byte is its leftmost pixel, `c = 0` (rule R102). -/
def spriteBit (b : Byte) (c : Nat) : Bool := b.getLsbD (7 - c)

end Sys2Proof.Machine
end

