-- ==== Sys2Proof/Machine/Flags.lean ====
section
/-! DEFINITION. The arithmetic of the register group with its flag: the value VF takes and the result, both computed from
the latched operands alone, and the order of the two writes (rules R89 to R95). -/

namespace Sys2Proof.Machine

/-- The value a flag has in VF: 1 or 0 (rule R11). -/
def flagByte (f : Bool) : Byte := if f then 1 else 0

/-- `s > 255` for the 9-bit sum `s = a + b` (rule R89). -/
def addCarry (a b : Byte) : Bool := decide (a.toNat + b.toNat > 255)

/-- `(a + b) mod 256` (rules R81, R89). -/
def addResult (a b : Byte) : Byte := BitVec.ofNat 8 (a.toNat + b.toNat)

/-- `a >= b`: no borrow in `a - b` (rules R90, R92). -/
def subNoBorrow (a b : Byte) : Bool := decide (a.toNat ≥ b.toNat)

/-- `(a - b) mod 256`, the remainder taken non-negative (rules R6, R90, R92). -/
def subResult (a b : Byte) : Byte := BitVec.ofInt 8 ((a.toNat : Int) - (b.toNat : Int))

/-- `a[0]`: the bit SHR shifts out (rule R91). -/
def shrBit (a : Byte) : Bool := a.getLsbD 0

/-- `a >> 1` (rule R91). -/
def shrResult (a : Byte) : Byte := a >>> 1

/-- `a[7]`: the bit SHL shifts out (rule R93). -/
def shlBit (a : Byte) : Bool := a.getLsbD 7

/-- `(a << 1) mod 256` (rule R93). -/
def shlResult (a : Byte) : Byte := a <<< 1

/-- Steps 3 and 4 of rule R95: the flag is written to VF first, then the result to `V[x]`; with `x = 15` the result
replaces the flag. -/
def writeFlagThenResult (s : State) (x : Reg) (flag : Bool) (result : Byte) : State :=
  writeV (writeV s vf (flagByte flag)) x result

end Sys2Proof.Machine
end

