-- ==== Sys2Proof/Machine/Alu.lean ====
section
/-! DEFINITION. The register-to-register group, family 0x8 (file 43_alu_register.md). -/

namespace Sys2Proof.Machine

/-- LD Vx, Vy (rule R85). -/
def execLdReg (x y : Reg) (s : State) : Host.Outcome State Fault Refusal :=
  .next (advance (writeV s x (readV s y)))

/-- OR Vx, Vy (rules R86, R96). -/
def execOrReg (x y : Reg) (s : State) : Host.Outcome State Fault Refusal :=
  .next (advance (writeV s x (readV s x ||| readV s y)))

/-- AND Vx, Vy (rules R87, R96). -/
def execAndReg (x y : Reg) (s : State) : Host.Outcome State Fault Refusal :=
  .next (advance (writeV s x (readV s x &&& readV s y)))

/-- XOR Vx, Vy (rules R88, R96). -/
def execXorReg (x y : Reg) (s : State) : Host.Outcome State Fault Refusal :=
  .next (advance (writeV s x (readV s x ^^^ readV s y)))

/-- ADD Vx, Vy (rules R89, R95). -/
def execAddReg (x y : Reg) (s : State) : Host.Outcome State Fault Refusal :=
  let a := readV s x
  let b := readV s y
  .next (advance (writeFlagThenResult s x (addCarry a b) (addResult a b)))

/-- SUB Vx, Vy (rules R90, R95). -/
def execSub (x y : Reg) (s : State) : Host.Outcome State Fault Refusal :=
  let a := readV s x
  let b := readV s y
  .next (advance (writeFlagThenResult s x (subNoBorrow a b) (subResult a b)))

/-- SHR Vx {, Vy} (rules R58, R91, R95): shifts `V[x]` in place; `y` is neither read nor written. -/
def execShr (x _y : Reg) (s : State) : Host.Outcome State Fault Refusal :=
  let a := readV s x
  .next (advance (writeFlagThenResult s x (shrBit a) (shrResult a)))

/-- SUBN Vx, Vy (rules R92, R95): `V[y] - V[x]`. -/
def execSubn (x y : Reg) (s : State) : Host.Outcome State Fault Refusal :=
  let a := readV s x
  let b := readV s y
  .next (advance (writeFlagThenResult s x (subNoBorrow b a) (subResult b a)))

/-- SHL Vx {, Vy} (rules R58, R93, R95): shifts `V[x]` in place; `y` is neither read nor written. -/
def execShl (x _y : Reg) (s : State) : Host.Outcome State Fault Refusal :=
  let a := readV s x
  .next (advance (writeFlagThenResult s x (shlBit a) (shlResult a)))

end Sys2Proof.Machine
end

