-- ==== Sys2Proof/Machine/ControlFlow.lean ====
section
/-! DEFINITION. The control-transfer instructions RET, JP, CALL, JP V0 (file 40_control_flow.md). -/

namespace Sys2Proof.Machine

/-- RET (rule R70): the popped address becomes PC with no increment. -/
def execRet (s : State) : Host.Outcome State Fault Refusal :=
  match pop s with
  | none => raise .stackUnderflow
  | some (t, a) => .next (setPc t a)

/-- JP addr (rule R71). -/
def execJp (nnn : Addr) (s : State) : Host.Outcome State Fault Refusal :=
  .next (setPc s (zextAddr nnn))

/-- CALL addr (rule R72): the return address pushed is `(PC + 2) mod 65536`. -/
def execCall (nnn : Addr) (s : State) : Host.Outcome State Fault Refusal :=
  match push s (s.pc + 2) with
  | none => raise .stackOverflow
  | some t => .next (setPc t (zextAddr nnn))

/-- JP V0, addr (rule R73): the sum is not masked to 12 bits. -/
def execJpV0 (nnn : Addr) (s : State) : Host.Outcome State Fault Refusal :=
  .next (setPc s (jumpOffset nnn (readV s v0)))

end Sys2Proof.Machine
end

