-- ==== Sys2Proof/Machine/Display.lean ====
section
/-! DEFINITION. The display instructions CLS and DRW and the sprite drawing engine (file 44_display.md). -/

namespace Sys2Proof.Machine

/-- What the loop of rule R101 carries: the framebuffer and whether a collision has been seen. -/
structure Canvas where
  fb : Pixels
  hit : Bool
  deriving DecidableEq, Repr

/-- One set sprite bit (rule R101): a collision when the target pixel is on, and the pixel toggled. The collision is never
cleared again in the same draw. -/
def blitBit (cv : Canvas) (row col : Nat) : Canvas :=
  { fb := togglePixel cv.fb row col, hit := cv.hit || pixel cv.fb row col }

/-- One sprite row `b`, landing on screen row `row`: its eight bits from the left, a 0 bit leaves its pixel (rules R101, R102). -/
def blitRow (vx b : Byte) (row : Nat) (cv : Canvas) : Canvas :=
  (List.range 8).foldl
    (fun cv c => if spriteBit b c then blitBit cv row (targetCol vx c) else cv) cv

/-- The sprite's rows from row number `r` on (rule R101). -/
def blitRows (vx vy : Byte) : Nat → List Byte → Canvas → Canvas
  | _, [], cv => cv
  | r, b :: bs, cv => blitRows vx vy (r + 1) bs (blitRow vx b (targetRow vy r) cv)

/-- The whole blit, from no collision (rule R101: "VF is initialized to 0 at the start of the call"). -/
def blit (vx vy : Byte) (rows : List Byte) (fb : Pixels) : Canvas :=
  blitRows vx vy 0 rows { fb := fb, hit := false }

/-- CLS (rule R100). -/
def execCls (s : State) : Host.Outcome State Fault Refusal :=
  .next (advance (showPixels s 0))

/-- DRW Vx, Vy, nibble (rules R101, R104): the coordinates are latched and the extent checked before any write; VF ends as
the collision flag. -/
def execDrw (x y : Reg) (n : Height) (s : State) : Host.Outcome State Fault Refusal :=
  let vx := readV s x
  let vy := readV s y
  if spriteInRange s n then
    let cv := blit vx vy (spriteRows s n) s.fb
    .next (advance (showPixels (writeV s vf (flagByte cv.hit)) cv.fb))
  else raise .addressOutOfRange

end Sys2Proof.Machine
end

