-- ==== Sys2Proof/Machine/Immediate.lean ====
section
/-! DEFINITION. The immediate instructions LD Vx, ADD Vx, LD I, RND (file 42_load_add_random.md). -/

namespace Sys2Proof.Machine

/-- LD Vx, byte (rule R80). -/
def execLdByte (x : Reg) (kk : Byte) (s : State) : Host.Outcome State Fault Refusal :=
  .next (advance (writeV s x kk))

/-- ADD Vx, byte (rule R81): no flag. -/
def execAddByte (x : Reg) (kk : Byte) (s : State) : Host.Outcome State Fault Refusal :=
  .next (advance (writeV s x (addResult (readV s x) kk)))

/-- LD I, addr (rule R82). -/
def execLdI (nnn : Addr) (s : State) : Host.Outcome State Fault Refusal :=
  .next (advance (writeI s (zextAddr nnn)))

/-- The effect of RND for the byte `r` on the input (rule R83). -/
def rndWith (r : Byte) (x : Reg) (kk : Byte) (s : State) : State :=
  advance (nextDraw (writeV s x (r &&& kk)))

/-- RND Vx, byte (rule R83): the byte on the input is a free value (log 1). -/
def execRnd (x : Reg) (kk : Byte) (s : State) : Host.Outcome State Fault Refusal :=
  .next (rndWith (randIn s) x kk s)

end Sys2Proof.Machine
end

