-- ==== Sys2Proof/Machine/Fetch.lean ====
section
/-! DEFINITION. FETCH and DECODE of a step (rules R61, R62), and the placing of an instruction where the next step fetches it. -/

namespace Sys2Proof.Machine

/-- FETCH then DECODE at PC: the instruction to execute, or DecodeError for every illegal word (rules R59, R61, R62). -/
def fetchDecode (s : State) : Except Fault Instr :=
  match decodeWord (fetchWord s s.pc) with
  | .ok i => .ok i
  | .error _ => .error .decodeError

/-- Store a word's two bytes at PC, high byte first, each address masked on its own (rule R34, log 2, log 17). -/
def placeWord (s : State) (w : Word) : State := memCopy s s.pc.toNat (bytesOfWord w)

end Sys2Proof.Machine
end

