-- ==== Sys2Proof/Machine/Step.lean ====
section
/-! DEFINITION. One step (rule R113), and the state whose next step runs a given instruction. -/

namespace Sys2Proof.Machine

/-- One fetch-decode-execute cycle (rules R61 to R64, R113). -/
def step (s : State) : Host.Outcome State Fault Refusal :=
  match fetchDecode s with
  | .ok i => exec i s
  | .error k => raise k

/-- `s` with the instruction of an opcode-table word stored where the next step fetches it (log 2, log 17). -/
def State.withFetchWord (s : State) (nbits w : Nat) : State := placeWord s (tableWord nbits w)

end Sys2Proof.Machine
end

