-- ==== Sys2Proof/Machine/HostOps.lean ====
section
/-! DEFINITION. The host operations (file 45_host_operations.md): each is one atomic transaction on the state (rule R40). The
response types stand at the transaction level; how signals carry them is the spec's open parameter PORT_BINDING (log 12). -/

namespace Sys2Proof.Machine

/-- The status of a `step` or a `load_program` (rule R125). -/
inductive Status where
  /-- OK. -/
  | ok
  /-- One of the five error kinds. -/
  | error (k : Fault)
  /-- The model gave the instruction no meaning; no status of the hardware, and never returned (log 12). -/
  | notExecuted (r : Refusal)
  deriving DecidableEq, Repr

/-- The numeric status codes of rule R125 (the spec's decision D12); none for what is no status of the hardware. -/
def statusCode : Status → Option (BitVec 3)
  | .ok => some 0
  | .error .decodeError => some 1
  | .error .stackOverflow => some 2
  | .error .stackUnderflow => some 3
  | .error .addressOutOfRange => some 4
  | .error .outOfBounds => some 5
  | .notExecuted _ => none

/-- What a read accessor selects (rule R116). -/
inductive Selector where
  | v (r : Reg)
  | i
  | pc
  | sp
  | stack (k : Fin 16)
  | mem (a : Addr)
  | pixel (row : Fin 32) (col : Fin 64)
  | dirty
  deriving DecidableEq, Repr

/-- The six kinds of transaction of rule R110. The byte on `rand_in` that a `step` may read is the free value of log 1. -/
inductive HostOp where
  | construct
  | loadProgram (bytes : List Byte)
  | step
  | consumeFramebuffer
  | framebufferChanged
  | readAccessor (sel : Selector)
  deriving DecidableEq, Repr

/-- What a transaction returns to the host (rule R110). -/
inductive Response where
  /-- `construct` returns nothing. -/
  | done
  | status (st : Status)
  | grid (fb : Pixels)
  | changed (d : Bool)
  /-- A read accessor's value, zero extended to 16 bits (log 12). -/
  | value (w : Word)
  deriving DecidableEq, Repr

/-- The end of a transaction that can fail: on any error every piece of state is as it was before (rules R113, R131). -/
def settle (s : State) : Host.Outcome State Fault Refusal → State × Response
  | .next t => (t, .status .ok)
  | .fault k => (s, .status (.error k))
  | .refused r => (s, .status (.notExecuted r))

/-- `construct` (rules R111, R145): every piece of state to its reset value. The model's own draw count goes on, so that
the random bytes after a second reset are no replay of the first run's (log 1). -/
def construct (s : State) : State := { State.reset with draws := s.draws }

/-- `load_program` (rule R112): the extent is checked before any byte is written. -/
def loadProgram (bytes : List Byte) (s : State) : Host.Outcome State Fault Refusal :=
  if imageWellFormed bytes then .next (memCopy s Config.progBase bytes) else raise .outOfBounds

/-- `consume_framebuffer` (rule R114): a copy of the pixels, and Dirty cleared. -/
def consumeFramebuffer (s : State) : State × Pixels := (clearDirty s, s.fb)

/-- `framebuffer_changed` (rule R115). -/
def framebufferChanged (s : State) : Bool := s.dirty

/-- One bit as a 16-bit accessor value (log 12). -/
def bitWord (b : Bool) : Word := if b then 1 else 0

/-- The read accessors (rule R116). -/
def readAccessor (s : State) : Selector → Word
  | .v r => (readV s r).zeroExtend 16
  | .i => s.i
  | .pc => s.pc
  | .sp => BitVec.ofNat 16 s.sp.val
  | .stack k => s.stack[k]
  | .mem a => (memRead s a.toNat).zeroExtend 16
  | .pixel row col => bitWord (pixel s.fb row.val col.val)
  | .dirty => bitWord s.dirty

/-- One transaction: the state after it and what it returns (rules R2, R110). -/
def transact (op : HostOp) (s : State) : State × Response :=
  match op with
  | .construct => (construct s, .done)
  | .loadProgram bytes => settle s (loadProgram bytes s)
  | .step => settle s (step s)
  | .consumeFramebuffer => ((consumeFramebuffer s).1, .grid (consumeFramebuffer s).2)
  | .framebufferChanged => (s, .changed (framebufferChanged s))
  | .readAccessor sel => (s, .value (readAccessor s sel))

/-- The transactions of a host session, in the order the host issues them (rules R40, R121). -/
def transactAll : List HostOp → State → State
  | [], s => s
  | op :: ops, s => transactAll ops (transact op s).1

end Sys2Proof.Machine
end

