-- ==== Sys2Proof/Machine/EndOfRun.lean ====
section
/-! DEFINITION. The end of a run (rules R66, R121, R149; the spec's decision D20): "PC addresses a JP to PC" or a fault. It is
what the host's driving loop reads off the state; the core itself has no halt, and a step from an ended state leaves that
state as it is. -/

namespace Sys2Proof.Machine

/-- PC addresses a JP to PC: the spin of rule R149. The whole 16-bit PC is compared, since JP replaces all of it (rule R71). -/
def spins (s : State) : Bool :=
  match fetchDecode s with
  | .ok (.jp nnn) => zextAddr nnn == s.pc
  | .ok _ => false
  | .error _ => false

/-- How a run has ended (rule R149). -/
inductive RunEnd where
  /-- The program spins on a jump to its own address. -/
  | spin
  /-- A step returns this error, which "ends the run from the driver's perspective". -/
  | fault (k : Fault)
  /-- The model gives the instruction no meaning; no end of the hardware's, and never reached (log 12). -/
  | notExecuted (r : Refusal)
  deriving DecidableEq, Repr

/-- Whether, and how, a run that stands at this state has ended (the spec's decision D20). -/
def runEnd (s : State) : Option RunEnd :=
  if spins s then some .spin
  else match step s with
    | .next _ => none
    | .fault k => some (.fault k)
    | .refused r => some (.notExecuted r)

/-- The driving loop: `step`, at most `k` times, until the run has ended (rules R121, R147); the state it stops at, and how the
run has ended there, if it has. How many steps to issue is the host's choice (the spec's decision D20). -/
def runToEnd : Nat → State → State × Option RunEnd
  | 0, s => (s, runEnd s)
  | k + 1, s =>
    match runEnd s with
    | some e => (s, some e)
    | none => runToEnd k (transact .step s).1

end Sys2Proof.Machine
end

