-- ==== Sys2Proof/Safety.lean ====
section
/-! DEFINITION. What counts as a good state and a safe step, in the terms the statements use: the invariants of rule R24, the
sprite a DRW draws as a set of pixels, and states that agree on what a program can observe (rule R23). -/

namespace Sys2Proof.Machine

/-- Mem[0x000 .. 0x1FF] holds its reset contents: the glyph table, then zeros (rule R24, item 3). -/
def LowRegionIntact (s : State) : Prop := ∀ a < Config.progBase, s.mem.read a = resetByte a

/-- `I <= 0x0FFF` (rule R24, item 2). -/
def IndexIsAddress (s : State) : Prop := s.i.toNat ≤ 0x0FFF

/-- Every occupied stack slot holds the address of a CALL instruction plus 2, modulo 65536 (rule R24, item 4). -/
def SlotsAreReturnAddresses (s : State) : Prop :=
  ∀ k : Fin 16, k.val < s.sp.val → ∃ nnn, decodeWord (fetchWord s (s.stack[k] - 2)) = .ok (.call nnn)

/-- What every transaction of the host keeps: canonical memory, the low region, the range of I (rule R24). SP within 0 to 16
(item 1) is the type of the field. -/
structure HostInv (s : State) : Prop where
  memory : s.mem.wf
  lowRegion : LowRegionIntact s
  index : IndexIsAddress s

/-- What every step keeps: the host's invariant and the return addresses. A `load_program` can replace the CALLs the stack
points after (rule R152), so the last clause is one about steps. -/
structure StepInv (s : State) : Prop where
  host : HostInv s
  slots : SlotsAreReturnAddresses s

/-- A step that completes: no fault and no refusal. -/
def SafeStep (s : State) : Prop := ∃ t, step s = .next t

/-- The states the host can bring the core to from reset (rules R24, R147). -/
inductive Reachable : State → Prop where
  | reset : Reachable State.reset
  | transact (op : HostOp) {s : State} : Reachable s → Reachable (transact op s).1

/-- The pixel at (row, col) is under a 1 bit of the sprite that `DRW Vx, Vy, n` draws from `s`: row `r` of the sprite is the
byte at `(I mod 4096) + r`, bit 7 its leftmost pixel, wrapped at both edges (rules R37, R45, R101, R102). -/
def SpriteCovers (s : State) (x y : Reg) (n : Height) (row col : Nat) : Prop :=
  ∃ r c, r < n.val ∧ c < 8 ∧ (memRead s (s.i.toNat % 4096 + r)).getLsbD (7 - c) = true ∧
    row = ((readV s y).toNat + r) % 32 ∧ col = ((readV s x).toNat + c) % 64

/-- Every general register outside the list holds in `t` what it held in `s`. -/
def VSameBut (rs : List Reg) (s t : State) : Prop := ∀ r : Reg, r ∉ rs → readV t r = readV s r

/-- SP and every stack slot, stale ones included, are the same. -/
def StackSame (s t : State) : Prop := t.sp = s.sp ∧ ∀ k : Fin 16, t.stack[k] = s.stack[k]

/-- Every byte of memory reads the same. -/
def MemorySame (s t : State) : Prop := ∀ a, memRead t a = memRead s a

/-- Every pixel and Dirty are the same. -/
def DisplaySame (s t : State) : Prop :=
  (∀ row < 32, ∀ col < 64, pixel t.fb row col = pixel s.fb row col) ∧ t.dirty = s.dirty

/-- The outcome with its next state changed by `f`; a fault or refusal is left as it is. -/
def onNext (f : State → State) : Host.Outcome State Fault Refusal → Host.Outcome State Fault Refusal
  | .next t => .next (f t)
  | .fault k => .fault k
  | .refused r => .refused r

/-- The states agree on everything but stale stack slots, those at SP and above (rules R16, R23). -/
structure AgreeButStaleSlots (s t : State) : Prop where
  v : s.v = t.v
  i : s.i = t.i
  pc : s.pc = t.pc
  sp : s.sp = t.sp
  live : ∀ k : Fin 16, k.val < s.sp.val → s.stack[k] = t.stack[k]
  mem : s.mem = t.mem
  fb : s.fb = t.fb
  dirty : s.dirty = t.dirty
  draws : s.draws = t.draws

end Sys2Proof.Machine
end

