-- ==== Sys2Proof/Certificates/Slice0/Obligations.lean ====
section
/-! DEFINITION. The statements for the provers. "The spec's D<n>" in a docstring names a decision of
spec/92_eei_decisions.md, the spec's own choice where its source is silent; such a statement has basis 'derived'. -/

open Sys2Proof Sys2Proof.Machine

/-! ### Encoding -/

/-- Words written out from the spec's encodings decode to the instructions they stand for, and one word of each illegal kind
is rejected by name (rules R51 to R60; the opcode numbers are the spec's D23). -/
def Obligations.WordsOfTheSpecDecode : Prop :=
  decodeWord 0xA000 = .ok (.ldI 0x000) ∧ decodeWord 0x6102 = .ok (.ldByte 1 0x02) ∧
  decodeWord 0xD015 = .ok (.drw 0 1 5) ∧ decodeWord 0x00EE = .ok .ret ∧ decodeWord 0x2208 = .ok (.call 0x208) ∧
  decodeWord 0x8316 = .ok (.shr 3 1) ∧ decodeWord 0x534A = .ok (.seReg 3 4) ∧ decodeWord 0xBFFF = .ok (.jpV0 0xFFF) ∧
  decodeWord 0x00E1 = .error .familyZero ∧ decodeWord 0x801F = .error .familyEight ∧
  decodeWord 0xE09E = .error .keyInputFamily ∧ decodeWord 0xF065 = .error .timerFamily

/-- Decoding what the encoder wrote gives the instruction back, with every operand at every value, and leaves the bytes that
follow (rules R50 to R54). -/
def Obligations.DecodeOfEncodeIsTheInstruction : Prop :=
  ∀ (i : Instr) (rest : List Byte),
    decodeWord (encode i) = .ok i ∧ decode (encodeBytes i ++ rest) = .ok (i, rest)

/-- A word that decodes selects exactly one row of the opcode map, the row of its instruction, and a word that is rejected
selects none (rule R54; the opcode numbers are the spec's D23). -/
def Obligations.EveryWordSelectsItsRowOrNone : Prop :=
  ∀ w : Word, (∀ i, decodeWord w = .ok i → (rowsOf w).map (·.mnemonic) = [i.mnemonic]) ∧
    (∀ e, decodeWord w = .error e → rowsOf w = [])

/-- A decoded word is the canonical encoding of its instruction, but for the low nibble of 5XY- and 9XY-, which the decoder
ignores (rule R57, the spec's D7). -/
def Obligations.DecodedWordIsItsEncoding : Prop :=
  ∀ (w : Word) (i : Instr), decodeWord w = .ok i →
    if w.toNat / 4096 = 5 ∨ w.toNat / 4096 = 9 then encode i = w &&& 0xFFF0 else encode i = w

/-- The low nibble of a word of family 0x5 or 0x9 does not change what it decodes to (rule R57, the spec's D7). -/
def Obligations.LowNibbleOfRegisterSkipsIgnored : Prop :=
  ∀ w w' : Word, w.toNat / 4096 = 5 ∨ w.toNat / 4096 = 9 → w'.toNat / 16 = w.toNat / 16 → decodeWord w' = decodeWord w

/-! ### The step -/

/-- FETCH and DECODE: the word is the byte at PC, then the byte at PC + 1, each address taken modulo 4096; a step runs the
instruction the word decodes to and faults with DecodeError on a word that decodes to none. FETCH itself never faults (rule
R61). -/
def Obligations.StepRunsTheDecodedInstruction : Prop :=
  ∀ s : State,
    let w : Word := s.mem.read (s.pc.toNat % 4096) ++ s.mem.read ((s.pc.toNat + 1) % 4096)
    (∀ i, decodeWord w = .ok i → step s = exec i s) ∧
    (∀ e, decodeWord w = .error e → step s = .fault .decodeError)

/-- A `step` returns DecodeError exactly when the word at PC is one of the illegal words, and then changes no state (rule
R126). -/
def Obligations.IllegalWordsAreDecodeErrors : Prop :=
  ∀ s : State,
    let w := 256 * (memRead s s.pc.toNat).toNat + (memRead s (s.pc.toNat + 1)).toNat
    let illegal := (w / 4096 = 0x0 ∧ w ≠ 0x00E0 ∧ w ≠ 0x00EE) ∨
      (w / 4096 = 0x8 ∧ w % 16 ∈ [0x8, 0x9, 0xA, 0xB, 0xC, 0xD, 0xF]) ∨ w / 4096 = 0xE ∨ w / 4096 = 0xF
    (illegal ↔ step s = .fault .decodeError) ∧
    (illegal → transact .step s = (s, .status (.error .decodeError)))

/-- After a load whose image begins with an instruction's bytes, the next step of a core whose PC is 0x0200 runs that
instruction (rules R43, R112, R147; the spec's D19). -/
def Obligations.LoadedInstructionIsTheNextToRun : Prop :=
  ∀ (s : State) (i : Instr) (rest : List Byte), s.mem.wf → s.pc = 0x0200 → rest.length + 2 ≤ 3584 →
    ∃ t, loadProgram (encodeBytes i ++ rest) s = .next t ∧ step t = exec i t

/-! ### Control flow -/

/-- JP puts the 12-bit operand in PC, and a jump to its own address changes nothing at all (rule R71). -/
def Obligations.JpSetsPc : Prop :=
  ∀ (s : State) (nnn : Addr),
    (∃ t, exec (.jp nnn) s = .next t ∧ t.pc.toNat = nnn.toNat) ∧
    (s.pc.toNat = nnn.toNat → exec (.jp nnn) s = .next s)

/-- CALL below capacity stores `(PC + 2) mod 65536` in the slot SP named, adds 1 to SP and puts the operand in PC (rule R72, the
spec's D1). -/
def Obligations.CallPushesReturnAddress : Prop :=
  ∀ (s : State) (nnn : Addr) (k : Fin 16), s.sp.val = k.val →
    ∃ t, exec (.call nnn) s = .next t ∧ t.stack[k] = s.pc + 2 ∧ t.sp.val = k.val + 1 ∧ t.pc.toNat = nnn.toNat ∧
      ∀ j : Fin 16, j ≠ k → t.stack[j] = s.stack[j]

/-- CALL raises StackOverflow exactly when SP = 16, and the state is then unchanged (rule R127). -/
def Obligations.CallOverflowsExactlyWhenFull : Prop :=
  ∀ (s : State) (nnn : Addr),
    (exec (.call nnn) s = .fault .stackOverflow ↔ s.sp.val = 16) ∧
    (s.sp.val = 16 → settle s (exec (.call nnn) s) = (s, .status (.error .stackOverflow)))

/-- RET above depth 0 lowers SP by 1, puts the popped slot in PC with no increment, and keeps the slot (rules R16, R70; the spec's
D1 and D15). -/
def Obligations.RetPopsReturnAddress : Prop :=
  ∀ (s : State) (k : Fin 16), s.sp.val = k.val + 1 →
    ∃ t, exec .ret s = .next t ∧ t.sp.val = k.val ∧ t.pc = s.stack[k] ∧ ∀ j : Fin 16, t.stack[j] = s.stack[j]

/-- RET raises StackUnderflow exactly when SP = 0, and the state is then unchanged (rule R128). -/
def Obligations.RetUnderflowsExactlyWhenEmpty : Prop :=
  ∀ s : State,
    (exec .ret s = .fault .stackUnderflow ↔ s.sp.val = 0) ∧
    (s.sp.val = 0 → settle s (exec .ret s) = (s, .status (.error .stackUnderflow)))

/-- A RET that finds the stack as a CALL left it, whatever else has changed, puts PC at the instruction after the CALL and SP back
(rules R70, R72; the spec's D1). -/
def Obligations.RetAfterCallRestoresPc : Prop :=
  ∀ (s t u : State) (nnn : Addr), exec (.call nnn) s = .next t → StackSame t u →
    ∃ u', exec .ret u = .next u' ∧ u'.pc = s.pc + 2 ∧ u'.sp = s.sp

/-- JP V0 puts the unmasked sum of the operand and V0 in PC (rule R73, the spec's D2). -/
def Obligations.JpV0SetsPcToSum : Prop :=
  ∀ (s : State) (nnn : Addr),
    ∃ t, exec (.jpV0 nnn) s = .next t ∧ t.pc.toNat = nnn.toNat + (readV s 0).toNat

/-! ### Skips -/

/-- SE and SNE against an immediate: PC moves by 4 when the condition holds, else by 2, modulo 65536 (rules R75, R76). -/
def Obligations.ImmediateSkipsAdvancePc : Prop :=
  ∀ (s : State) (x : Reg) (kk : Byte),
    (∃ t, exec (.seByte x kk) s = .next t ∧
      t.pc.toNat = (s.pc.toNat + if readV s x = kk then 4 else 2) % 65536) ∧
    (∃ t, exec (.sneByte x kk) s = .next t ∧
      t.pc.toNat = (s.pc.toNat + if readV s x ≠ kk then 4 else 2) % 65536)

/-- SE and SNE between registers: PC moves by 4 when the condition holds, else by 2; on one register twice SE always skips and
SNE never (rules R77, R78). -/
def Obligations.RegisterSkipsAdvancePc : Prop :=
  ∀ (s : State) (x y : Reg),
    (∃ t, exec (.seReg x y) s = .next t ∧
      t.pc.toNat = (s.pc.toNat + if readV s x = readV s y then 4 else 2) % 65536) ∧
    (∃ t, exec (.sneReg x y) s = .next t ∧
      t.pc.toNat = (s.pc.toNat + if readV s x ≠ readV s y then 4 else 2) % 65536) ∧
    (∃ t, exec (.seReg x x) s = .next t ∧ t.pc = s.pc + 4) ∧ (∃ t, exec (.sneReg x x) s = .next t ∧ t.pc = s.pc + 2)

/-! ### Immediate instructions -/

/-- LD Vx, byte stores the immediate; ADD Vx, byte adds it modulo 256 and leaves VF alone unless VF is the destination (rules R80,
R81). -/
def Obligations.ImmediateLoadAndAddResults : Prop :=
  ∀ (s : State) (x : Reg) (kk : Byte),
    (∃ t, exec (.ldByte x kk) s = .next t ∧ readV t x = kk ∧ t.pc = s.pc + 2 ∧ (x ≠ 15 → readV t 15 = readV s 15)) ∧
    (∃ t, exec (.addByte x kk) s = .next t ∧ (readV t x).toNat = ((readV s x).toNat + kk.toNat) % 256 ∧
      t.pc = s.pc + 2 ∧ (x ≠ 15 → readV t 15 = readV s 15))

/-- LD I puts the 12-bit operand in I, bits 15 to 12 zero (rule R82, the spec's D31). -/
def Obligations.LdILoadsIndex : Prop :=
  ∀ (s : State) (nnn : Addr),
    ∃ t, exec (.ldI nnn) s = .next t ∧ t.i.toNat = nnn.toNat ∧ t.pc = s.pc + 2

/-- RND stores the AND of the input byte and the mask, for every byte the input may hold; the instruction reads the free value of
the model's draw count (log 1), and bits the mask clears are 0 whatever that value is (rule R83, the spec's D16). -/
def Obligations.RndMasksTheInputByte : Prop :=
  ∀ (s : State) (x : Reg) (kk : Byte),
    (∀ r : Byte, readV (rndWith r x kk s) x = r &&& kk ∧ (rndWith r x kk s).pc = s.pc + 2) ∧
    ∃ t, exec (.rnd x kk) s = .next t ∧ t = rndWith (Config.randIn s.draws) x kk s ∧
      readV t x &&& ~~~kk = 0 ∧ t.pc = s.pc + 2 ∧ t.draws = s.draws + 1

/-! ### The register group -/

/-- LD Vx, Vy, OR, AND and XOR: bit by bit, the result from the two registers read before the write; VF is not written unless it is
the destination (rules R85 to R88). -/
def Obligations.MoveAndLogicResults : Prop :=
  ∀ (s : State) (x y : Reg),
    (∃ t, exec (.ldReg x y) s = .next t ∧ readV t x = readV s y ∧ t.pc = s.pc + 2 ∧
      (x ≠ 15 → readV t 15 = readV s 15)) ∧
    (∃ t, exec (.orReg x y) s = .next t ∧ t.pc = s.pc + 2 ∧ (x ≠ 15 → readV t 15 = readV s 15) ∧
      ∀ j < 8, (readV t x).getLsbD j = ((readV s x).getLsbD j || (readV s y).getLsbD j)) ∧
    (∃ t, exec (.andReg x y) s = .next t ∧ t.pc = s.pc + 2 ∧ (x ≠ 15 → readV t 15 = readV s 15) ∧
      ∀ j < 8, (readV t x).getLsbD j = ((readV s x).getLsbD j && (readV s y).getLsbD j)) ∧
    (∃ t, exec (.xorReg x y) s = .next t ∧ t.pc = s.pc + 2 ∧ (x ≠ 15 → readV t 15 = readV s 15) ∧
      ∀ j < 8, (readV t x).getLsbD j = ((readV s x).getLsbD j ^^ (readV s y).getLsbD j))

/-- ADD Vx, Vy: the sum modulo 256, and VF = 1 iff the sum exceeds 255; with VF the destination the sum stands (rule R89). -/
def Obligations.AddSetsCarryAndSum : Prop :=
  ∀ (s : State) (x y : Reg),
    let sum := (readV s x).toNat + (readV s y).toNat
    ∃ t, exec (.addReg x y) s = .next t ∧ t.pc = s.pc + 2 ∧ (readV t x).toNat = sum % 256 ∧
      (x ≠ 15 → (readV t 15).toNat = if sum > 255 then 1 else 0)

/-- SUB and SUBN: the difference modulo 256, and VF = 1 iff there is no borrow; with VF the destination the difference stands
(rules R90, R92). -/
def Obligations.SubAndSubnSetNoBorrowAndDifference : Prop :=
  ∀ (s : State) (x y : Reg),
    let a := (readV s x).toNat
    let b := (readV s y).toNat
    (∃ t, exec (.sub x y) s = .next t ∧ t.pc = s.pc + 2 ∧ ((readV t x).toNat : Int) = ((a : Int) - b) % 256 ∧
      (x ≠ 15 → (readV t 15).toNat = if a ≥ b then 1 else 0)) ∧
    (∃ t, exec (.subn x y) s = .next t ∧ t.pc = s.pc + 2 ∧ ((readV t x).toNat : Int) = ((b : Int) - a) % 256 ∧
      (x ≠ 15 → (readV t 15).toNat = if b ≥ a then 1 else 0))

/-- SHR and SHL shift `V[x]` in place by one, VF takes the bit shifted out, and the `y` field plays no part (rules R58, R91, R93; the
spec's D6). -/
def Obligations.ShiftsInPlaceAndShiftedOutBit : Prop :=
  ∀ (s : State) (x y : Reg),
    let a := (readV s x).toNat
    (∃ t, exec (.shr x y) s = .next t ∧ t.pc = s.pc + 2 ∧ (readV t x).toNat = a / 2 ∧
      (x ≠ 15 → (readV t 15).toNat = a % 2)) ∧
    (∃ t, exec (.shl x y) s = .next t ∧ t.pc = s.pc + 2 ∧ (readV t x).toNat = 2 * a % 256 ∧
      (x ≠ 15 → (readV t 15).toNat = a / 128)) ∧
    (∀ y', exec (.shr x y') s = exec (.shr x y) s ∧ exec (.shl x y') s = exec (.shl x y) s)

/-- SHL Vx is ADD Vx, Vx: the same register, the same VF, the same everything (derived in rule R93). -/
def Obligations.ShlIsAddToItself : Prop :=
  ∀ (s : State) (x y : Reg), exec (.shl x y) s = exec (.addReg x x) s

/-- Of all instructions only ADD, SUB, SUBN, SHR, SHL and DRW write VF where it is not their destination register; the first five
leave 0 or 1 there unless it is, and DRW always (rules R11, R96, R104). -/
def Obligations.OnlySixInstructionsWriteVfAsFlag : Prop :=
  ∀ (i : Instr) (s t : State), exec i s = .next t →
    match i with
    | .addReg x _ | .sub x _ | .subn x _ | .shr x _ | .shl x _ => x ≠ 15 → (readV t 15).toNat ≤ 1
    | .drw _ _ _ => (readV t 15).toNat ≤ 1
    | .ldByte x _ | .addByte x _ | .rnd x _ => x ≠ 15 → readV t 15 = readV s 15
    | .ldReg x _ | .orReg x _ | .andReg x _ | .xorReg x _ => x ≠ 15 → readV t 15 = readV s 15
    | _ => readV t 15 = readV s 15

/-! ### Display -/

/-- CLS turns every pixel off, sets Dirty and moves PC by 2 (rule R100, the spec's D26). -/
def Obligations.ClsClearsEveryPixel : Prop :=
  ∀ s : State, ∃ t, exec .cls s = .next t ∧ (∀ row < 32, ∀ col < 64, pixel t.fb row col = false) ∧
    t.dirty = true ∧ t.pc = s.pc + 2

/-- DRW with its rows inside memory inverts exactly the pixels its sprite covers, wrapped at both edges, with the coordinates and I
read before any write; VF ends 1 when a covered pixel was on and 0 otherwise; Dirty is set and PC moves by 2 (rules R101, R102,
R104; the spec's D5, D10, D26, D33). -/
def Obligations.DrwInvertsExactlyTheCoveredPixels : Prop :=
  ∀ (s : State) (x y : Reg) (n : Height), s.i.toNat % 4096 + n.val ≤ 4096 →
    ∃ t, exec (.drw x y n) s = .next t ∧ t.pc = s.pc + 2 ∧ t.dirty = true ∧
      (∀ row < 32, ∀ col < 64,
        (SpriteCovers s x y n row col → pixel t.fb row col = !pixel s.fb row col) ∧
        (¬ SpriteCovers s x y n row col → pixel t.fb row col = pixel s.fb row col)) ∧
      ((∃ row col, SpriteCovers s x y n row col ∧ pixel s.fb row col = true) → (readV t 15).toNat = 1) ∧
      ((¬ ∃ row col, SpriteCovers s x y n row col ∧ pixel s.fb row col = true) → (readV t 15).toNat = 0)

/-- DRW raises AddressOutOfRange exactly when `(I mod 4096) + n > 4096`, and the state is then unchanged (rules R37, R129; the spec's
D5 and D11). -/
def Obligations.DrwFaultsExactlyBeyondMemory : Prop :=
  ∀ (s : State) (x y : Reg) (n : Height),
    (exec (.drw x y n) s = .fault .addressOutOfRange ↔ s.i.toNat % 4096 + n.val > 4096) ∧
    (s.i.toNat % 4096 + n.val > 4096 →
      settle s (exec (.drw x y n) s) = (s, .status (.error .addressOutOfRange)))

/-- The same sprite drawn twice at the same place erases itself; if the first draw met no collision the second meets one exactly
when the sprite has a 1 bit (rule R103, items 1 and 2, derived there; the spec's C5). -/
def Obligations.DrawingTwiceErases : Prop :=
  ∀ (s t : State) (x y : Reg) (n : Height), exec (.drw x y n) s = .next t →
    readV t x = readV s x → readV t y = readV s y →
    ∃ u, exec (.drw x y n) t = .next u ∧ u.fb = s.fb ∧
      (readV t 15 = 0 → (∃ row col, SpriteCovers s x y n row col) → readV u 15 = 1) ∧
      ((¬ ∃ row col, SpriteCovers s x y n row col) → readV t 15 = 0 ∧ readV u 15 = 0)

/-! ### Frames: what an instruction leaves unchanged -/

/-- The instructions with one result register and no flag change no other register, nor I, the stack, memory or the display (rules
R80, R81, R83, R85 to R88). Only RND touches the model's draw count. -/
def Obligations.PlainResultFrame : Prop :=
  ∀ (x y : Reg) (kk : Byte) (i : Instr) (s t : State),
    i ∈ [.ldByte x kk, .addByte x kk, .rnd x kk, .ldReg x y, .orReg x y, .andReg x y, .xorReg x y] →
    exec i s = .next t →
    VSameBut [x] s t ∧ t.i = s.i ∧ StackSame s t ∧ MemorySame s t ∧ DisplaySame s t ∧
      (i ≠ .rnd x kk → t.draws = s.draws)

/-- The flag-setting register instructions change no register but their destination and VF, nor I, the stack, memory or the display
(rules R89 to R93). -/
def Obligations.FlagResultFrame : Prop :=
  ∀ (x y : Reg) (i : Instr) (s t : State),
    i ∈ [.addReg x y, .sub x y, .shr x y, .subn x y, .shl x y] → exec i s = .next t →
    VSameBut [x, 15] s t ∧ t.i = s.i ∧ StackSame s t ∧ MemorySame s t ∧ DisplaySame s t ∧ t.draws = s.draws

/-- JP, JP V0 and the four skips change nothing but PC (rules R71, R73, R75 to R78). -/
def Obligations.JumpAndSkipFrame : Prop :=
  ∀ (nnn : Addr) (x y : Reg) (kk : Byte) (i : Instr) (s t : State),
    i ∈ [.jp nnn, .jpV0 nnn, .seByte x kk, .sneByte x kk, .seReg x y, .sneReg x y] → exec i s = .next t →
    VSameBut [] s t ∧ t.i = s.i ∧ StackSame s t ∧ MemorySame s t ∧ DisplaySame s t ∧ t.draws = s.draws

/-- CALL and RET change nothing but PC, SP and, for CALL, the one slot it fills (rules R70, R72). -/
def Obligations.CallAndRetFrame : Prop :=
  ∀ (nnn : Addr) (i : Instr) (s t : State), i ∈ [.call nnn, .ret] → exec i s = .next t →
    VSameBut [] s t ∧ t.i = s.i ∧ MemorySame s t ∧ DisplaySame s t ∧ t.draws = s.draws ∧
      ∀ k : Fin 16, (i = .ret ∨ k.val ≠ s.sp.val) → t.stack[k] = s.stack[k]

/-- LD I changes nothing but I and PC (rule R82). -/
def Obligations.LdIFrame : Prop :=
  ∀ (nnn : Addr) (s t : State), exec (.ldI nnn) s = .next t →
    VSameBut [] s t ∧ StackSame s t ∧ MemorySame s t ∧ DisplaySame s t ∧ t.draws = s.draws

/-- CLS changes no register and DRW none but VF, and neither changes I, the stack or memory (rules R100, R101). -/
def Obligations.DisplayFrame : Prop :=
  ∀ (x y : Reg) (n : Height) (i : Instr) (s t : State), i ∈ [.cls, .drw x y n] → exec i s = .next t →
    VSameBut [15] s t ∧ (i = .cls → readV t 15 = readV s 15) ∧ t.i = s.i ∧ StackSame s t ∧ MemorySame s t ∧
      t.draws = s.draws

/-! ### Rules about the whole machine -/

/-- PC after every instruction that completes: the operations that set it aside, 4 for a skip taken and 2 otherwise (rule R64). -/
def Obligations.PcAfterEveryInstruction : Prop :=
  ∀ (i : Instr) (s t : State), exec i s = .next t →
    match i with
    | .jp nnn | .call nnn => t.pc.toNat = nnn.toNat
    | .jpV0 nnn => t.pc.toNat = nnn.toNat + (readV s 0).toNat
    | .ret => ∀ k : Fin 16, s.sp.val = k.val + 1 → t.pc = s.stack[k]
    | .seByte x kk => t.pc = s.pc + if readV s x = kk then 4 else 2
    | .sneByte x kk => t.pc = s.pc + if readV s x = kk then 2 else 4
    | .seReg x y => t.pc = s.pc + if readV s x = readV s y then 4 else 2
    | .sneReg x y => t.pc = s.pc + if readV s x = readV s y then 2 else 4
    | _ => t.pc = s.pc + 2

/-- Every instruction completes unless its one check fails: CALL on a full stack, RET on an empty one, DRW beyond memory; no
instruction is refused (rules R131, R133; the spec's D5 and D32). -/
def Obligations.EveryInstructionCompletesUnlessItsCheckFails : Prop :=
  ∀ (i : Instr) (s : State),
    match i with
    | .call _ => if s.sp.val = 16 then exec i s = .fault .stackOverflow else ∃ t, exec i s = .next t
    | .ret => if s.sp.val = 0 then exec i s = .fault .stackUnderflow else ∃ t, exec i s = .next t
    | .drw _ _ n =>
      if s.i.toNat % 4096 + n.val > 4096 then exec i s = .fault .addressOutOfRange else ∃ t, exec i s = .next t
    | _ => ∃ t, exec i s = .next t

/-- Beyond the register file and PC only CLS and DRW reach the framebuffer and only CALL and RET the stack; nothing reaches memory
(rule R68). -/
def Obligations.OnlyDisplayAndStackInstructionsReachBeyondRegisters : Prop :=
  ∀ (i : Instr) (s t : State), exec i s = .next t →
    MemorySame s t ∧
    (¬ DisplaySame s t → i = .cls ∨ ∃ x y n, i = .drw x y n) ∧
    (¬ StackSame s t → i = .ret ∨ ∃ nnn, i = .call nnn)

/-- Memory is written by `construct` and `load_program` alone: every other transaction leaves every byte, `construct` zeroes memory
and writes the 80 bytes of GLYPH_TABLE, and `load_program` copies its bytes from 0x200 on and changes no other byte (rule R38). -/
def Obligations.OnlyConstructAndLoadWriteMemory : Prop :=
  ∀ (s : State) (op : HostOp), s.mem.wf →
    match op with
    | .construct => ∀ a, memRead (transact op s).1 a = if a % 4096 < 80 then glyphTable.getD (a % 4096) 0 else 0
    | .loadProgram bytes =>
        (∀ k < bytes.length, bytes.length + 0x200 ≤ 4096 → memRead (transact op s).1 (0x200 + k) = bytes.getD k 0) ∧
        ∀ a < 4096, (a < 0x200 ∨ 0x200 + bytes.length ≤ a) → memRead (transact op s).1 a = memRead s a
    | _ => MemorySame s (transact op s).1

/-- I is written by LD I alone, and read by DRW alone, which uses no more of it than `I mod 4096` (rule R12).
The two runs of an RND agree because both states hold the same draw count, and so are given the same input byte: log 1, the
model's choice. -/
def Obligations.IndexWrittenByLdIReadByDrw : Prop :=
  ∀ (i : Instr) (s : State) (j : Word),
    match i with
    | .ldI nnn => exec i { s with i := j } = exec i s ∧ ∃ t, exec i s = .next t ∧ t.i.toNat = nnn.toNat
    | .drw _ _ _ => (j.toNat % 4096 = s.i.toNat % 4096 →
        exec i { s with i := j } = onNext (fun t => { t with i := j }) (exec i s)) ∧
        ∀ t, exec i s = .next t → t.i = s.i
    | _ => exec i { s with i := j } = onNext (fun t => { t with i := j }) (exec i s) ∧
        ∀ t, exec i s = .next t → t.i = s.i

/-- Dirty is invisible to the program: two states that differ in it alone take steps that differ in it at most (rules R19, R23).
Where the steps run RND they agree because both states hold the same draw count, and so are given the same input byte: log 1,
the model's choice. -/
def Obligations.DirtyIsInvisibleToThePrograms : Prop :=
  ∀ (s : State) (d : Bool),
    onNext (fun t => { t with dirty := false }) (step { s with dirty := d }) =
      onNext (fun t => { t with dirty := false }) (step s)

/-- The random input is read by RND alone: with another draw count, which stands for another input (log 1), every other instruction
does the same (rules R113, R119; the spec's D16). -/
def Obligations.RandomInputReadOnlyByRnd : Prop :=
  ∀ (i : Instr) (s : State) (k : Nat), (∀ x kk, i ≠ .rnd x kk) →
    exec i { s with draws := k } = onNext (fun t => { t with draws := k }) (exec i s)

/-- Stale stack slots are unobservable: two states that agree but for slots at SP and above take steps that end alike and agree
again but for such slots (rules R16, R23; the spec's D15). Where the steps run RND they agree because both states hold the same
draw count, and so are given the same input byte: log 1, the model's choice. -/
def Obligations.StaleStackSlotsAreUnobservable : Prop :=
  ∀ s t : State, AgreeButStaleSlots s t →
    (∀ s', step s = .next s' → ∃ t', step t = .next t' ∧ AgreeButStaleSlots s' t') ∧
    (∀ k, step s = .fault k → step t = .fault k)

/-! ### Invariants -/

/-- The state after reset meets every invariant of rule R24. -/
def Obligations.ResetMeetsTheInvariant : Prop := StepInv State.reset

/-- Every step that completes keeps the invariants: canonical memory, the low region, the range of I, and a return address after a
CALL in every occupied stack slot (rule R24, items 2 to 4, derived there). -/
def Obligations.StepKeepsTheInvariant : Prop :=
  ∀ s t : State, StepInv s → step s = .next t → StepInv t

/-- Every transaction of the host keeps canonical memory, the low region and the range of I, so every state the host can bring the
core to from reset has them (rule R24, items 2 and 3, derived there). -/
def Obligations.HostTransactionsKeepTheInvariant : Prop :=
  (∀ (op : HostOp) (s : State), HostInv s → HostInv (transact op s).1) ∧ ∀ s : State, Reachable s → HostInv s

/-! ### The host's transactions -/

/-- `construct`, from any state, gives every piece of state its reset value (rules R25, R111); Dirty = 1 is the spec's D14, and the
glyph bytes are a statement of their own. -/
def Obligations.ConstructGivesResetValues : Prop :=
  ∀ s : State, let t := (transact .construct s).1
    (∀ r, readV t r = 0) ∧ t.i = 0 ∧ t.pc = 0x0200 ∧ t.sp.val = 0 ∧ (∀ k : Fin 16, t.stack[k] = 0) ∧
    (∀ a, 0x50 ≤ a → a < 4096 → memRead t a = 0) ∧ (∀ row < 32, ∀ col < 64, pixel t.fb row col = false) ∧
    t.dirty = true

/-- `construct` writes the glyph of each hexadecimal digit `d` at `5*d` (rules R32, R33; the bytes and their order are the spec's
D22, from general knowledge). -/
def Obligations.ConstructWritesTheGlyphTable : Prop :=
  ∀ s : State, let glyph (d : Nat) := (List.range 5).map fun r => memRead (transact .construct s).1 (5 * d + r)
    glyph 0x0 = [0xF0, 0x90, 0x90, 0x90, 0xF0] ∧ glyph 0x1 = [0x20, 0x60, 0x20, 0x20, 0x70] ∧
    glyph 0x2 = [0xF0, 0x10, 0xF0, 0x80, 0xF0] ∧ glyph 0x3 = [0xF0, 0x10, 0xF0, 0x10, 0xF0] ∧
    glyph 0x4 = [0x90, 0x90, 0xF0, 0x10, 0x10] ∧ glyph 0x5 = [0xF0, 0x80, 0xF0, 0x10, 0xF0] ∧
    glyph 0x6 = [0xF0, 0x80, 0xF0, 0x90, 0xF0] ∧ glyph 0x7 = [0xF0, 0x10, 0x20, 0x40, 0x40] ∧
    glyph 0x8 = [0xF0, 0x90, 0xF0, 0x90, 0xF0] ∧ glyph 0x9 = [0xF0, 0x90, 0xF0, 0x10, 0xF0] ∧
    glyph 0xA = [0xF0, 0x90, 0xF0, 0x90, 0x90] ∧ glyph 0xB = [0xE0, 0x90, 0xE0, 0x90, 0xE0] ∧
    glyph 0xC = [0xF0, 0x80, 0x80, 0x80, 0xF0] ∧ glyph 0xD = [0xE0, 0x90, 0x90, 0x90, 0xE0] ∧
    glyph 0xE = [0xF0, 0x80, 0xF0, 0x80, 0xF0] ∧ glyph 0xF = [0xF0, 0x80, 0xF0, 0x80, 0x80]

/-- `load_program` of a string that fits writes exactly its bytes from 0x200 on, and changes nothing but memory (rule R112, the spec's
D19). -/
def Obligations.LoadProgramCopiesItsBytes : Prop :=
  ∀ (s : State) (bytes : List Byte), s.mem.wf → bytes.length + 0x200 ≤ 4096 →
    ∃ t, transact (.loadProgram bytes) s = (t, .status .ok) ∧
      (∀ k < bytes.length, memRead t (0x200 + k) = bytes.getD k 0) ∧
      (∀ a < 4096, (a < 0x200 ∨ 0x200 + bytes.length ≤ a) → memRead t a = memRead s a) ∧
      { t with mem := s.mem } = s

/-- `load_program` returns OutOfBounds exactly when `len + 0x200 > 4096`, `step` never does, and memory is then unchanged (rule
R130). -/
def Obligations.LoadProgramOutOfBoundsExactlyWhenTooLong : Prop :=
  ∀ (s : State) (bytes : List Byte),
    ((transact (.loadProgram bytes) s).2 = .status (.error .outOfBounds) ↔ bytes.length + 0x200 > 4096) ∧
    (bytes.length + 0x200 > 4096 → (transact (.loadProgram bytes) s).1.mem = s.mem) ∧
    (transact .step s).2 ≠ .status (.error .outOfBounds)

/-- `framebuffer_changed` returns Dirty and changes nothing; it returns true after every CLS and DRW that completes, whatever was
consumed before, and false after `consume_framebuffer`, which returns the latest frame (rule R115). -/
def Obligations.FramebufferChangedFollowsTheHandshake : Prop :=
  ∀ s : State, transact .framebufferChanged s = (s, .changed s.dirty) ∧
    (∀ (i : Instr) (t : State), (i = .cls ∨ ∃ x y n, i = .drw x y n) → exec i s = .next t →
      (transact .framebufferChanged t).2 = .changed true) ∧
    (transact .consumeFramebuffer s).2 = .grid s.fb ∧
    (transact .framebufferChanged (transact .consumeFramebuffer s).1).2 = .changed false

/-- `consume_framebuffer` returns the pixels as they are and clears Dirty, whatever it was, and nothing else; a second one returns
the same pixels (rule R114, the spec's D25). -/
def Obligations.ConsumeReturnsPixelsAndClearsDirty : Prop :=
  ∀ s : State, ∃ t, transact .consumeFramebuffer s = (t, .grid s.fb) ∧ t = { s with dirty := false } ∧
    transact .consumeFramebuffer t = (t, .grid s.fb) ∧ (transact .framebufferChanged t).2 = .changed false

/-- The read accessors return each piece of state and change nothing (rule R116, the spec's D18; the 16-bit form of a value is the
model's, log 12). -/
def Obligations.AccessorsReadTheState : Prop :=
  ∀ (s : State) (sel : Selector), ∃ w, transact (.readAccessor sel) s = (s, .value w) ∧
    match sel with
    | .v r => w.toNat = (readV s r).toNat
    | .i => w = s.i
    | .pc => w = s.pc
    | .sp => w.toNat = s.sp.val
    | .stack k => w = s.stack[k]
    | .mem a => w.toNat = (memRead s a.toNat).toNat
    | .pixel row col => w.toNat = if pixel s.fb row.val col.val then 1 else 0
    | .dirty => w.toNat = if s.dirty then 1 else 0

/-- A transaction that ends with an error leaves every piece of state as it was (rule R131, the spec's D11), and a step after a step
that faulted faults in the same way (rule R132, the spec's D30). -/
def Obligations.ErrorsLeaveStateAndRepeat : Prop :=
  ∀ (op : HostOp) (s : State) (k : Fault), (transact op s).2 = .status (.error k) →
    (transact op s).1 = s ∧ transact op (transact op s).1 = (s, .status (.error k))

/-! ### The end of a run -/

/-- A run spins exactly when PC is below 0x1000 and addresses the word `0x1000 | PC`; the step transaction then returns OK and
changes nothing (rules R71, R149; the spec's D20). -/
def Obligations.SpinIsAJumpToItself : Prop :=
  ∀ s : State,
    let w := 256 * (memRead s s.pc.toNat).toNat + (memRead s (s.pc.toNat + 1)).toNat
    (spins s = true ↔ s.pc.toNat < 0x1000 ∧ w = 0x1000 + s.pc.toNat) ∧
    (spins s = true → transact .step s = (s, .status .ok))

/-- No instruction but a jump to its own address completes with the state as it was: there is no halt and no instruction without
effect (rules R66, R149). JP V0 can stand still too; the spec's D20 names JP alone as the end of a run, and so does `spins`
(log 18). -/
def Obligations.OnlyJumpsToThemselvesStandStill : Prop :=
  ∀ (i : Instr) (s : State), exec i s = .next s ↔
    (∃ nnn : Addr, i = .jp nnn ∧ nnn.toNat = s.pc.toNat) ∨
    (∃ nnn : Addr, i = .jpV0 nnn ∧ nnn.toNat + (readV s 0).toNat = s.pc.toNat)

/-- A run has ended exactly when PC addresses a JP to PC or its next step faults, and in no other way (rules R121, R149; the spec's
D20). -/
def Obligations.RunEndIsASpinOrAFault : Prop :=
  ∀ s : State, (runEnd s = some .spin ↔ spins s = true) ∧ (∀ k, runEnd s = some (.fault k) ↔ step s = .fault k) ∧
    (runEnd s = none ↔ spins s = false ∧ ∃ t, step s = .next t) ∧ ∀ r, runEnd s ≠ some (.notExecuted r)

/-- If the driving loop finds the end of a run within `k` steps, it finds it after the first `m` of them and at no earlier state,
and the state there is final: every further step leaves it as it is, and every longer loop answers the same (rules R132, R149;
the spec's D20). -/
def Obligations.EndedRunStaysAsItIs : Prop :=
  ∀ (k : Nat) (s t : State) (e : RunEnd), runToEnd k s = (t, some e) →
    ∃ m ≤ k, (∀ j < m, runEnd (transactAll (List.replicate j .step) s) = none) ∧ runEnd t = some e ∧
      ∀ j ≥ m, transactAll (List.replicate j .step) s = t ∧ runToEnd j s = (t, some e)
end

