-- ==== Sys2Proof/Laws/Decode.lean ====
section
/-! SUPPORT. The fields of a word built in each format (rules R51, R52): what the decoder cites of the encoder. -/

namespace Sys2Proof

/-- The field of `k` bits from bit `lo` on of `hi ++ low`, when it lies wholly in the upper part. -/
theorem extractLsb'_append_upper {n m k lo : Nat} (a : BitVec n) (b : BitVec m) (h : m ≤ lo) :
    (a ++ b).extractLsb' lo k = a.extractLsb' (lo - m) k := by
  apply BitVec.eq_of_getLsbD_eq
  intro i hi
  have h1 : ¬ lo + i < m := by omega
  have h2 : lo + i - m = lo - m + i := by omega
  simp [BitVec.getLsbD_append, hi, h1, h2]

/-- The same field when it lies wholly in the lower part. -/
theorem extractLsb'_append_lower {n m k lo : Nat} (a : BitVec n) (b : BitVec m) (h : lo + k ≤ m) :
    (a ++ b).extractLsb' lo k = b.extractLsb' lo k := by
  apply BitVec.eq_of_getLsbD_eq
  intro i hi
  have h1 : lo + i < m := by omega
  simp [BitVec.getLsbD_append, hi, h1]

/-- All of a vector's bits are the vector. -/
theorem extractLsb'_whole {n : Nat} (a : BitVec n) : a.extractLsb' 0 n = a := by
  apply BitVec.eq_of_getLsbD_eq
  intro i hi
  simp [hi]

@[simp] theorem opField_formatA (op : BitVec 4) (nnn : Addr) : opField (formatA op nnn) = op := by
  rw [opField, formatA, extractLsb'_append_upper _ _ (by decide)]; exact extractLsb'_whole op

@[simp] theorem nnnField_formatA (op : BitVec 4) (nnn : Addr) : nnnField (formatA op nnn) = nnn := by
  rw [nnnField, formatA, extractLsb'_append_lower _ _ (by decide)]; exact extractLsb'_whole nnn

@[simp] theorem opField_formatXK (op : BitVec 4) (x : Reg) (kk : Byte) : opField (formatXK op x kk) = op := by
  rw [opField, formatXK, extractLsb'_append_upper _ _ (by decide), extractLsb'_append_upper _ _ (by decide)]
  exact extractLsb'_whole op

@[simp] theorem xField_formatXK (op : BitVec 4) (x : Reg) (kk : Byte) : xField (formatXK op x kk) = x := by
  rw [xField, formatXK, extractLsb'_append_upper _ _ (by decide), extractLsb'_append_lower _ _ (by decide)]
  exact congrArg BitVec.toFin (extractLsb'_whole (BitVec.ofFin x : BitVec 4))

@[simp] theorem kkField_formatXK (op : BitVec 4) (x : Reg) (kk : Byte) : kkField (formatXK op x kk) = kk := by
  rw [kkField, formatXK, extractLsb'_append_lower _ _ (by decide)]; exact extractLsb'_whole kk

@[simp] theorem opField_formatXYN (op : BitVec 4) (x y : Reg) (n : BitVec 4) :
    opField (formatXYN op x y n) = op := by
  rw [opField, formatXYN, extractLsb'_append_upper _ _ (by decide), extractLsb'_append_upper _ _ (by decide),
    extractLsb'_append_upper _ _ (by decide)]
  exact extractLsb'_whole op

@[simp] theorem xField_formatXYN (op : BitVec 4) (x y : Reg) (n : BitVec 4) :
    xField (formatXYN op x y n) = x := by
  rw [xField, formatXYN, extractLsb'_append_upper _ _ (by decide), extractLsb'_append_upper _ _ (by decide),
    extractLsb'_append_lower _ _ (by decide)]
  exact congrArg BitVec.toFin (extractLsb'_whole (BitVec.ofFin x : BitVec 4))

@[simp] theorem yField_formatXYN (op : BitVec 4) (x y : Reg) (n : BitVec 4) :
    yField (formatXYN op x y n) = y := by
  rw [yField, formatXYN, extractLsb'_append_upper _ _ (by decide), extractLsb'_append_lower _ _ (by decide)]
  exact congrArg BitVec.toFin (extractLsb'_whole (BitVec.ofFin y : BitVec 4))

@[simp] theorem nField_formatXYN (op : BitVec 4) (x y : Reg) (n : BitVec 4) :
    nField (formatXYN op x y n) = n.toFin := by
  rw [nField, formatXYN, extractLsb'_append_lower _ _ (by decide)]
  exact congrArg BitVec.toFin (extractLsb'_whole n)

/-- A word is the concatenation of its two bytes as they lie in memory (rule R34). -/
theorem wordOfBytes_bytesOfWord (w : Word) :
    wordOfBytes (w.extractLsb' 8 8) (w.extractLsb' 0 8) = w := by
  apply BitVec.eq_of_getLsbD_eq
  intro i hi
  simp only [wordOfBytes, BitVec.getLsbD_append, BitVec.getLsbD_extractLsb']
  by_cases h : i < 8
  · simp [h]
  · have h1 : i - 8 < 8 := by omega
    have h2 : 8 + (i - 8) = i := by omega
    simp [h, h1, h2]

/-- Decoding a word's two bytes is decoding the word, whatever follows. -/
theorem decode_bytesOfWord (w : Word) (rest : List Byte) :
    decode (bytesOfWord w ++ rest) = (decodeWord w).map fun i => (i, rest) := by
  simp [bytesOfWord, decode, wordOfBytes_bytesOfWord]

/-! ### The fields as numbers, and a word as its fields -/

theorem opField_toNat (w : Word) : (opField w).toNat = w.toNat / 4096 := by
  have := w.isLt
  simp only [opField, BitVec.extractLsb'_toNat, Nat.shiftRight_eq_div_pow]
  omega

theorem xField_val (w : Word) : (xField w).val = w.toNat / 256 % 16 := by
  show (w.extractLsb' 8 4).toNat = _
  simp [BitVec.extractLsb'_toNat, Nat.shiftRight_eq_div_pow]

theorem yField_val (w : Word) : (yField w).val = w.toNat / 16 % 16 := by
  show (w.extractLsb' 4 4).toNat = _
  simp [BitVec.extractLsb'_toNat, Nat.shiftRight_eq_div_pow]

theorem nField_val (w : Word) : (nField w).val = w.toNat % 16 := by
  show (w.extractLsb' 0 4).toNat = _
  simp [BitVec.extractLsb'_toNat]

theorem kkField_toNat (w : Word) : (kkField w).toNat = w.toNat % 256 := by
  simp [kkField, BitVec.extractLsb'_toNat]

theorem nnnField_toNat (w : Word) : (nnnField w).toNat = w.toNat % 4096 := by
  simp [nnnField, BitVec.extractLsb'_toNat]

/-- Concatenation as a number. -/
theorem toNat_append_eq {n m : Nat} (a : BitVec n) (b : BitVec m) :
    (a ++ b).toNat = a.toNat * 2 ^ m + b.toNat := by
  rw [BitVec.toNat_append, ← Nat.shiftLeft_add_eq_or_of_lt b.isLt, Nat.shiftLeft_eq]

theorem word_eq_formatA (w : Word) : w = formatA (opField w) (nnnField w) := by
  apply BitVec.eq_of_toNat_eq
  rw [formatA, toNat_append_eq, opField_toNat, nnnField_toNat]
  omega

theorem word_eq_formatXK (w : Word) : w = formatXK (opField w) (xField w) (kkField w) := by
  apply BitVec.eq_of_toNat_eq
  have hx : (BitVec.ofFin (xField w) : BitVec 4).toNat = w.toNat / 256 % 16 := xField_val w
  rw [formatXK, toNat_append_eq, toNat_append_eq, opField_toNat, hx, kkField_toNat]
  omega

theorem word_eq_formatXYN (w : Word) :
    w = formatXYN (opField w) (xField w) (yField w) (BitVec.ofFin (nField w)) := by
  apply BitVec.eq_of_toNat_eq
  have hx : (BitVec.ofFin (xField w) : BitVec 4).toNat = w.toNat / 256 % 16 := xField_val w
  have hy : (BitVec.ofFin (yField w) : BitVec 4).toNat = w.toNat / 16 % 16 := yField_val w
  have hn : (BitVec.ofFin (nField w) : BitVec 4).toNat = w.toNat % 16 := nField_val w
  rw [formatXYN, toNat_append_eq, toNat_append_eq, toNat_append_eq, opField_toNat, hx, hy, hn]
  omega

/-- The words that decode to a JP are those of its encoding (rule R54). -/
theorem decodeWord_eq_jp_iff (w : Word) (nnn : Addr) : decodeWord w = .ok (.jp nnn) ↔ w.toNat = 0x1000 + nnn.toNat := by
  have hop := opField_toNat w
  have hf := nnnField_toNat w
  constructor
  · intro h
    unfold decodeWord at h
    split at h <;> try simp only [Except.ok.injEq, Instr.jp.injEq, reduceCtorEq] at h
    case h_1 => unfold decodeFamilyZero at h; split_ifs at h <;> cases h
    case h_2 h1 => subst h; omega
    case h_9 => unfold decodeFamilyEight at h; split at h <;> simp at h
  · intro h
    have := nnn.isLt
    have h1 : (opField w).toNat = 1 := by omega
    have h2 : nnnField w = nnn := BitVec.eq_of_toNat_eq (by omega)
    simp only [decodeWord, h1, h2]

end Sys2Proof
end

