-- ==== Sys2Proof/Laws/State.lean ====
section
/-! SUPPORT. One lemma per field of State and per named update: what the update leaves in the field. -/

namespace Sys2Proof.Machine

/-! ### writeV -/

@[simp] theorem writeV_v (s : State) (r : Reg) (b : Byte) : (writeV s r b).v = s.v.set r b := rfl
@[simp] theorem writeV_i (s : State) (r : Reg) (b : Byte) : (writeV s r b).i = s.i := rfl
@[simp] theorem writeV_pc (s : State) (r : Reg) (b : Byte) : (writeV s r b).pc = s.pc := rfl
@[simp] theorem writeV_sp (s : State) (r : Reg) (b : Byte) : (writeV s r b).sp = s.sp := rfl
@[simp] theorem writeV_stack (s : State) (r : Reg) (b : Byte) : (writeV s r b).stack = s.stack := rfl
@[simp] theorem writeV_mem (s : State) (r : Reg) (b : Byte) : (writeV s r b).mem = s.mem := rfl
@[simp] theorem writeV_fb (s : State) (r : Reg) (b : Byte) : (writeV s r b).fb = s.fb := rfl
@[simp] theorem writeV_dirty (s : State) (r : Reg) (b : Byte) : (writeV s r b).dirty = s.dirty := rfl
@[simp] theorem writeV_draws (s : State) (r : Reg) (b : Byte) : (writeV s r b).draws = s.draws := rfl

/-! ### writeI -/

@[simp] theorem writeI_v (s : State) (a : Word) : (writeI s a).v = s.v := rfl
@[simp] theorem writeI_i (s : State) (a : Word) : (writeI s a).i = a := rfl
@[simp] theorem writeI_pc (s : State) (a : Word) : (writeI s a).pc = s.pc := rfl
@[simp] theorem writeI_sp (s : State) (a : Word) : (writeI s a).sp = s.sp := rfl
@[simp] theorem writeI_stack (s : State) (a : Word) : (writeI s a).stack = s.stack := rfl
@[simp] theorem writeI_mem (s : State) (a : Word) : (writeI s a).mem = s.mem := rfl
@[simp] theorem writeI_fb (s : State) (a : Word) : (writeI s a).fb = s.fb := rfl
@[simp] theorem writeI_dirty (s : State) (a : Word) : (writeI s a).dirty = s.dirty := rfl
@[simp] theorem writeI_draws (s : State) (a : Word) : (writeI s a).draws = s.draws := rfl

/-! ### setPc -/

@[simp] theorem setPc_v (s : State) (a : Word) : (setPc s a).v = s.v := rfl
@[simp] theorem setPc_i (s : State) (a : Word) : (setPc s a).i = s.i := rfl
@[simp] theorem setPc_pc (s : State) (a : Word) : (setPc s a).pc = a := rfl
@[simp] theorem setPc_sp (s : State) (a : Word) : (setPc s a).sp = s.sp := rfl
@[simp] theorem setPc_stack (s : State) (a : Word) : (setPc s a).stack = s.stack := rfl
@[simp] theorem setPc_mem (s : State) (a : Word) : (setPc s a).mem = s.mem := rfl
@[simp] theorem setPc_fb (s : State) (a : Word) : (setPc s a).fb = s.fb := rfl
@[simp] theorem setPc_dirty (s : State) (a : Word) : (setPc s a).dirty = s.dirty := rfl
@[simp] theorem setPc_draws (s : State) (a : Word) : (setPc s a).draws = s.draws := rfl

/-! ### advance -/

@[simp] theorem advance_v (s : State) : (advance s).v = s.v := rfl
@[simp] theorem advance_i (s : State) : (advance s).i = s.i := rfl
@[simp] theorem advance_pc (s : State) : (advance s).pc = s.pc + 2 := rfl
@[simp] theorem advance_sp (s : State) : (advance s).sp = s.sp := rfl
@[simp] theorem advance_stack (s : State) : (advance s).stack = s.stack := rfl
@[simp] theorem advance_mem (s : State) : (advance s).mem = s.mem := rfl
@[simp] theorem advance_fb (s : State) : (advance s).fb = s.fb := rfl
@[simp] theorem advance_dirty (s : State) : (advance s).dirty = s.dirty := rfl
@[simp] theorem advance_draws (s : State) : (advance s).draws = s.draws := rfl

/-! ### memWrite -/

@[simp] theorem memWrite_v (s : State) (a : Nat) (b : Byte) : (memWrite s a b).v = s.v := rfl
@[simp] theorem memWrite_i (s : State) (a : Nat) (b : Byte) : (memWrite s a b).i = s.i := rfl
@[simp] theorem memWrite_pc (s : State) (a : Nat) (b : Byte) : (memWrite s a b).pc = s.pc := rfl
@[simp] theorem memWrite_sp (s : State) (a : Nat) (b : Byte) : (memWrite s a b).sp = s.sp := rfl
@[simp] theorem memWrite_stack (s : State) (a : Nat) (b : Byte) : (memWrite s a b).stack = s.stack := rfl
@[simp] theorem memWrite_mem (s : State) (a : Nat) (b : Byte) : (memWrite s a b).mem = s.mem.write (maskAddr a) b := rfl
@[simp] theorem memWrite_fb (s : State) (a : Nat) (b : Byte) : (memWrite s a b).fb = s.fb := rfl
@[simp] theorem memWrite_dirty (s : State) (a : Nat) (b : Byte) : (memWrite s a b).dirty = s.dirty := rfl
@[simp] theorem memWrite_draws (s : State) (a : Nat) (b : Byte) : (memWrite s a b).draws = s.draws := rfl

/-! ### showPixels -/

@[simp] theorem showPixels_v (s : State) (fb : Pixels) : (showPixels s fb).v = s.v := rfl
@[simp] theorem showPixels_i (s : State) (fb : Pixels) : (showPixels s fb).i = s.i := rfl
@[simp] theorem showPixels_pc (s : State) (fb : Pixels) : (showPixels s fb).pc = s.pc := rfl
@[simp] theorem showPixels_sp (s : State) (fb : Pixels) : (showPixels s fb).sp = s.sp := rfl
@[simp] theorem showPixels_stack (s : State) (fb : Pixels) : (showPixels s fb).stack = s.stack := rfl
@[simp] theorem showPixels_mem (s : State) (fb : Pixels) : (showPixels s fb).mem = s.mem := rfl
@[simp] theorem showPixels_fb (s : State) (fb : Pixels) : (showPixels s fb).fb = fb := rfl
@[simp] theorem showPixels_dirty (s : State) (fb : Pixels) : (showPixels s fb).dirty = true := rfl
@[simp] theorem showPixels_draws (s : State) (fb : Pixels) : (showPixels s fb).draws = s.draws := rfl

/-! ### clearDirty -/

@[simp] theorem clearDirty_v (s : State) : (clearDirty s).v = s.v := rfl
@[simp] theorem clearDirty_i (s : State) : (clearDirty s).i = s.i := rfl
@[simp] theorem clearDirty_pc (s : State) : (clearDirty s).pc = s.pc := rfl
@[simp] theorem clearDirty_sp (s : State) : (clearDirty s).sp = s.sp := rfl
@[simp] theorem clearDirty_stack (s : State) : (clearDirty s).stack = s.stack := rfl
@[simp] theorem clearDirty_mem (s : State) : (clearDirty s).mem = s.mem := rfl
@[simp] theorem clearDirty_fb (s : State) : (clearDirty s).fb = s.fb := rfl
@[simp] theorem clearDirty_dirty (s : State) : (clearDirty s).dirty = false := rfl
@[simp] theorem clearDirty_draws (s : State) : (clearDirty s).draws = s.draws := rfl

/-! ### nextDraw -/

@[simp] theorem nextDraw_v (s : State) : (nextDraw s).v = s.v := rfl
@[simp] theorem nextDraw_i (s : State) : (nextDraw s).i = s.i := rfl
@[simp] theorem nextDraw_pc (s : State) : (nextDraw s).pc = s.pc := rfl
@[simp] theorem nextDraw_sp (s : State) : (nextDraw s).sp = s.sp := rfl
@[simp] theorem nextDraw_stack (s : State) : (nextDraw s).stack = s.stack := rfl
@[simp] theorem nextDraw_mem (s : State) : (nextDraw s).mem = s.mem := rfl
@[simp] theorem nextDraw_fb (s : State) : (nextDraw s).fb = s.fb := rfl
@[simp] theorem nextDraw_dirty (s : State) : (nextDraw s).dirty = s.dirty := rfl
@[simp] theorem nextDraw_draws (s : State) : (nextDraw s).draws = s.draws + 1 := rfl

/-! ### construct -/

@[simp] theorem construct_v (s : State) : (construct s).v = State.reset.v := rfl
@[simp] theorem construct_i (s : State) : (construct s).i = State.reset.i := rfl
@[simp] theorem construct_pc (s : State) : (construct s).pc = State.reset.pc := rfl
@[simp] theorem construct_sp (s : State) : (construct s).sp = State.reset.sp := rfl
@[simp] theorem construct_stack (s : State) : (construct s).stack = State.reset.stack := rfl
@[simp] theorem construct_mem (s : State) : (construct s).mem = State.reset.mem := rfl
@[simp] theorem construct_fb (s : State) : (construct s).fb = State.reset.fb := rfl
@[simp] theorem construct_dirty (s : State) : (construct s).dirty = State.reset.dirty := rfl
@[simp] theorem construct_draws (s : State) : (construct s).draws = s.draws := rfl

/-! ### writeFlagThenResult -/

@[simp] theorem writeFlagThenResult_v (s : State) (x : Reg) (f : Bool) (b : Byte) : (writeFlagThenResult s x f b).v = (s.v.set vf (flagByte f)).set x b := rfl
@[simp] theorem writeFlagThenResult_i (s : State) (x : Reg) (f : Bool) (b : Byte) : (writeFlagThenResult s x f b).i = s.i := rfl
@[simp] theorem writeFlagThenResult_pc (s : State) (x : Reg) (f : Bool) (b : Byte) : (writeFlagThenResult s x f b).pc = s.pc := rfl
@[simp] theorem writeFlagThenResult_sp (s : State) (x : Reg) (f : Bool) (b : Byte) : (writeFlagThenResult s x f b).sp = s.sp := rfl
@[simp] theorem writeFlagThenResult_stack (s : State) (x : Reg) (f : Bool) (b : Byte) : (writeFlagThenResult s x f b).stack = s.stack := rfl
@[simp] theorem writeFlagThenResult_mem (s : State) (x : Reg) (f : Bool) (b : Byte) : (writeFlagThenResult s x f b).mem = s.mem := rfl
@[simp] theorem writeFlagThenResult_fb (s : State) (x : Reg) (f : Bool) (b : Byte) : (writeFlagThenResult s x f b).fb = s.fb := rfl
@[simp] theorem writeFlagThenResult_dirty (s : State) (x : Reg) (f : Bool) (b : Byte) : (writeFlagThenResult s x f b).dirty = s.dirty := rfl
@[simp] theorem writeFlagThenResult_draws (s : State) (x : Reg) (f : Bool) (b : Byte) : (writeFlagThenResult s x f b).draws = s.draws := rfl

/-! ### skipIf -/

@[simp] theorem skipIf_pc (c : Bool) (s : State) : (skipIf c s).pc = if c then s.pc + 4 else s.pc + 2 := by
  cases c <;> rfl
@[simp] theorem skipIf_v (c : Bool) (s : State) : (skipIf c s).v = s.v := by cases c <;> rfl
@[simp] theorem skipIf_i (c : Bool) (s : State) : (skipIf c s).i = s.i := by cases c <;> rfl
@[simp] theorem skipIf_sp (c : Bool) (s : State) : (skipIf c s).sp = s.sp := by cases c <;> rfl
@[simp] theorem skipIf_stack (c : Bool) (s : State) : (skipIf c s).stack = s.stack := by cases c <;> rfl
@[simp] theorem skipIf_mem (c : Bool) (s : State) : (skipIf c s).mem = s.mem := by cases c <;> rfl
@[simp] theorem skipIf_fb (c : Bool) (s : State) : (skipIf c s).fb = s.fb := by cases c <;> rfl
@[simp] theorem skipIf_dirty (c : Bool) (s : State) : (skipIf c s).dirty = s.dirty := by cases c <;> rfl
@[simp] theorem skipIf_draws (c : Bool) (s : State) : (skipIf c s).draws = s.draws := by cases c <;> rfl

/-! ### memCopy -/

@[simp] theorem memCopy_v (s : State) (a : Nat) (bs : List Byte) : (memCopy s a bs).v = s.v := by
  induction bs generalizing s a with
  | nil => rfl
  | cons b bs ih => exact ih (memWrite s a b) (a + 1)
@[simp] theorem memCopy_i (s : State) (a : Nat) (bs : List Byte) : (memCopy s a bs).i = s.i := by
  induction bs generalizing s a with
  | nil => rfl
  | cons b bs ih => exact ih (memWrite s a b) (a + 1)
@[simp] theorem memCopy_pc (s : State) (a : Nat) (bs : List Byte) : (memCopy s a bs).pc = s.pc := by
  induction bs generalizing s a with
  | nil => rfl
  | cons b bs ih => exact ih (memWrite s a b) (a + 1)
@[simp] theorem memCopy_sp (s : State) (a : Nat) (bs : List Byte) : (memCopy s a bs).sp = s.sp := by
  induction bs generalizing s a with
  | nil => rfl
  | cons b bs ih => exact ih (memWrite s a b) (a + 1)
@[simp] theorem memCopy_stack (s : State) (a : Nat) (bs : List Byte) : (memCopy s a bs).stack = s.stack := by
  induction bs generalizing s a with
  | nil => rfl
  | cons b bs ih => exact ih (memWrite s a b) (a + 1)
@[simp] theorem memCopy_fb (s : State) (a : Nat) (bs : List Byte) : (memCopy s a bs).fb = s.fb := by
  induction bs generalizing s a with
  | nil => rfl
  | cons b bs ih => exact ih (memWrite s a b) (a + 1)
@[simp] theorem memCopy_dirty (s : State) (a : Nat) (bs : List Byte) : (memCopy s a bs).dirty = s.dirty := by
  induction bs generalizing s a with
  | nil => rfl
  | cons b bs ih => exact ih (memWrite s a b) (a + 1)
@[simp] theorem memCopy_draws (s : State) (a : Nat) (bs : List Byte) : (memCopy s a bs).draws = s.draws := by
  induction bs generalizing s a with
  | nil => rfl
  | cons b bs ih => exact ih (memWrite s a b) (a + 1)

end Sys2Proof.Machine
end

