-- ==== Sys2Proof/Laws/Memory.lean ====
section
/-! SUPPORT. The laws of memory: a read after a write, the canonical form every write keeps, and what copying a byte string
leaves. -/

namespace Sys2Proof.Machine

theorem Memory.read_unlisted {m : Memory} {a : Nat} (h : ∀ c ∈ m, c.1 ≠ a) : m.read a = resetByte a := by
  induction m with
  | nil => rfl
  | cons c m ih =>
    have hc : ¬ a = c.1 := fun e => h c (by simp) e.symm
    simp only [Memory.read, if_neg hc]
    exact ih fun d hd => h d (List.mem_cons_of_mem _ hd)

/-- In a canonical memory the addresses after the first lie above it. -/
theorem Memory.wf_cons {c : Host.Cell} {m : Memory} :
    Memory.wf (c :: m) ↔
      (∀ d ∈ m, c.1 < d.1) ∧ (c.1 < Config.memSize ∧ c.2 ≠ resetByte c.1) ∧ m.wf := by
  simp only [Memory.wf, List.pairwise_cons, List.forall_mem_cons]
  tauto

theorem Memory.read_write_self {m : Memory} (hm : m.wf) (a : Nat) (b : Byte) :
    (m.write a b).read a = b := by
  induction m with
  | nil =>
    unfold Memory.write
    split
    · simp_all [Memory.read]
    · simp [Memory.read]
  | cons c m ih =>
    obtain ⟨k, e⟩ := c
    obtain ⟨hlt, -, hm'⟩ := Memory.wf_cons.mp hm
    unfold Memory.write
    by_cases h1 : a < k
    · have hne : ¬ a = k := by omega
      have hrest : Memory.read m a = resetByte a := Memory.read_unlisted fun d hd => by
        have := hlt d hd
        simp only at this
        omega
      by_cases h2 : b = resetByte a
      · simp [h1, h2, Memory.read, hne, hrest]
      · simp [h1, h2, Memory.read]
    · by_cases h3 : a = k
      · subst h3
        have hrest : Memory.read m a = resetByte a := Memory.read_unlisted fun d hd => by
          have := hlt d hd
          simp only at this
          omega
        by_cases h2 : b = resetByte a
        · simp [h2, hrest]
        · simp [h2, Memory.read]
      · simp [h1, h3, Memory.read, ih hm']

theorem Memory.read_write_of_ne {m : Memory} (hm : m.wf) {a a' : Nat} (b : Byte) (h : a' ≠ a) :
    (m.write a b).read a' = m.read a' := by
  induction m with
  | nil =>
    unfold Memory.write
    split <;> simp [Memory.read, h]
  | cons c m ih =>
    obtain ⟨k, e⟩ := c
    obtain ⟨hlt, -, hm'⟩ := Memory.wf_cons.mp hm
    unfold Memory.write
    by_cases h1 : a < k
    · by_cases h2 : b = resetByte a <;> simp [h1, h2, Memory.read, h]
    · by_cases h3 : a = k
      · subst h3
        by_cases h2 : b = resetByte a <;> simp [h2, Memory.read, h]
      · by_cases h4 : a' = k <;> simp [h1, h3, h4, Memory.read, ih hm']

/-- A read after a write: the byte written at its address, every other address as before. -/
theorem Memory.read_write {m : Memory} (hm : m.wf) (a a' : Nat) (b : Byte) :
    (m.write a b).read a' = if a' = a then b else m.read a' := by
  split
  · next h => rw [h, Memory.read_write_self hm]
  · next h => exact Memory.read_write_of_ne hm b h

/-- The addresses listed after a write were listed before, or are the one written. -/
theorem Memory.fst_of_mem_write {m : Memory} {a : Nat} {b : Byte} {c : Host.Cell} (h : c ∈ m.write a b) :
    c ∈ m ∨ (c = (a, b) ∧ b ≠ resetByte a) := by
  induction m with
  | nil =>
    unfold Memory.write at h
    split at h
    · simp at h
    · exact .inr ⟨by simpa using h, ‹_›⟩
  | cons d m ih =>
    obtain ⟨k, e⟩ := d
    unfold Memory.write at h
    split at h
    · split at h
      · exact .inl h
      · rcases List.mem_cons.mp h with rfl | h
        · exact .inr ⟨rfl, ‹_›⟩
        · exact .inl h
    · split at h
      · split at h
        · exact .inl (List.mem_cons_of_mem _ h)
        · rcases List.mem_cons.mp h with rfl | h
          · exact .inr ⟨rfl, ‹_›⟩
          · exact .inl (List.mem_cons_of_mem _ h)
      · rcases List.mem_cons.mp h with rfl | h
        · exact .inl (by simp)
        · rcases ih h with h | h
          · exact .inl (List.mem_cons_of_mem _ h)
          · exact .inr h

/-- A write inside the address space keeps the canonical form. -/
theorem Memory.write_wf {m : Memory} (hm : m.wf) {a : Nat} (ha : a < Config.memSize) (b : Byte) :
    (m.write a b).wf := by
  induction m with
  | nil =>
    unfold Memory.write
    split
    · exact hm
    · exact ⟨by simp, by simp_all⟩
  | cons c m ih =>
    obtain ⟨k, e⟩ := c
    have hall := hm
    obtain ⟨hlt, hk, hm'⟩ := Memory.wf_cons.mp hm
    unfold Memory.write
    split
    · next h1 =>
      split
      · exact hall
      · next h2 =>
        refine Memory.wf_cons.mpr ⟨?_, ⟨ha, h2⟩, hall⟩
        intro d hd
        rcases List.mem_cons.mp hd with rfl | hd
        · exact h1
        · exact lt_trans h1 (hlt d hd)
    · next h1 =>
      split
      · next h3 =>
        subst h3
        split
        · exact hm'
        · next h2 => exact Memory.wf_cons.mpr ⟨hlt, ⟨ha, h2⟩, hm'⟩
      · next h3 =>
        refine Memory.wf_cons.mpr ⟨?_, hk, ih hm'⟩
        intro d hd
        rcases Memory.fst_of_mem_write hd with hd | ⟨rfl, -⟩
        · exact hlt d hd
        · simp only at *
          omega

/-- Equal memories are equal lists: two canonical memories that read alike everywhere are the same. -/
theorem Memory.eq_of_read {m m' : Memory} (hm : m.wf) (hm' : m'.wf) (h : ∀ a, m.read a = m'.read a) :
    m = m' := by
  induction m generalizing m' with
  | nil =>
    cases m' with
    | nil => rfl
    | cons c m' =>
      obtain ⟨-, hc, -⟩ := Memory.wf_cons.mp hm'
      have := h c.1
      simp [Memory.read] at this
      exact absurd this.symm hc.2
  | cons c m ih =>
    obtain ⟨hlt, hc, hw⟩ := Memory.wf_cons.mp hm
    cases m' with
    | nil =>
      have := h c.1
      simp [Memory.read] at this
      exact absurd this hc.2
    | cons c' m' =>
      obtain ⟨hlt', hc', hw'⟩ := Memory.wf_cons.mp hm'
      have hunl : Memory.read m c.1 = resetByte c.1 :=
        Memory.read_unlisted fun d hd => (hlt d hd).ne'
      have hunl' : Memory.read m' c'.1 = resetByte c'.1 :=
        Memory.read_unlisted fun d hd => (hlt' d hd).ne'
      have hkey : c.1 = c'.1 := by
        rcases lt_trichotomy c.1 c'.1 with hk | hk | hk
        · have := h c.1
          rw [Memory.read_unlisted (m := c' :: m')] at this
          · simp [Memory.read] at this
            exact absurd this hc.2
          · intro d hd
            rcases List.mem_cons.mp hd with rfl | hd
            · exact hk.ne'
            · exact (hk.trans (hlt' d hd)).ne'
        · exact hk
        · have := h c'.1
          rw [Memory.read_unlisted (m := c :: m)] at this
          · simp [Memory.read] at this
            exact absurd this.symm hc'.2
          · intro d hd
            rcases List.mem_cons.mp hd with rfl | hd
            · exact hk.ne'
            · exact (hk.trans (hlt d hd)).ne'
      have hval : c.2 = c'.2 := by
        have := h c.1
        simpa [Memory.read, hkey] using this
      have hceq : c = c' := Prod.ext hkey hval
      subst hceq
      congr 1
      refine ih hw hw' fun a => ?_
      by_cases ha : a = c.1
      · rw [ha, hunl, hunl']
      · simpa [Memory.read, ha] using h a

theorem maskAddr_lt (a : Nat) : maskAddr a < Config.memSize := Nat.mod_lt _ (by decide)

theorem maskAddr_of_lt {a : Nat} (h : a < Config.memSize) : maskAddr a = a := Nat.mod_eq_of_lt h

theorem memWrite_wf {s : State} (h : s.mem.wf) (a : Nat) (b : Byte) : (memWrite s a b).mem.wf :=
  Memory.write_wf h (maskAddr_lt a) b

theorem memCopy_wf {s : State} (h : s.mem.wf) (a : Nat) (bs : List Byte) : (memCopy s a bs).mem.wf := by
  induction bs generalizing s a with
  | nil => exact h
  | cons b bs ih => exact ih (memWrite_wf h a b) (a + 1)

/-- Copying a byte string that fits from address `a` on: its bytes from `a`, every other byte as before. -/
theorem memCopy_read {s : State} (h : s.mem.wf) {a : Nat} {bs : List Byte}
    (hfit : a + bs.length ≤ Config.memSize) (k : Nat) :
    (memCopy s a bs).mem.read k =
      if a ≤ k ∧ k < a + bs.length then bs.getD (k - a) 0 else s.mem.read k := by
  induction bs generalizing s a with
  | nil => simp [memCopy]
  | cons b bs ih =>
    simp only [List.length_cons] at hfit
    have hb := ih (s := memWrite s a b) (memWrite_wf h a b) (a := a + 1) (by omega)
    rw [memCopy, hb, memWrite_mem, maskAddr_of_lt (by omega), Memory.read_write h]
    by_cases h1 : k = a
    · subst h1
      simp
    · by_cases h2 : a + 1 ≤ k ∧ k < a + 1 + bs.length
      · have h3 : a ≤ k ∧ k < a + (b :: bs).length := by simp only [List.length_cons]; omega
        obtain ⟨j, hj⟩ : ∃ j, k = a + (j + 1) := ⟨k - a - 1, by omega⟩
        subst hj
        have e1 : a + (j + 1) - (a + 1) = j := by omega
        have e2 : a + (j + 1) - a = j + 1 := by omega
        rw [if_pos h2, if_pos h3, e1, e2, List.getD_cons_succ]
      · have h3 : ¬ (a ≤ k ∧ k < a + (b :: bs).length) := by simp only [List.length_cons]; omega
        rw [if_neg h2, if_neg h3, if_neg h1]

end Sys2Proof.Machine
end

