-- ==== Sys2Proof/Laws/Ops.lean ====
section
/-! SUPPORT. What the shared operations do: registers, the stack, the flag and result writes, the pixels, the fetch. -/

namespace Sys2Proof.Machine

/-! ### Registers -/

theorem readV_congr {s t : State} (h : s.v = t.v) (r : Reg) : readV s r = readV t r := by
  simp only [readV, h]

/-- A register read after a register write. -/
@[simp] theorem readV_writeV (s : State) (r r' : Reg) (b : Byte) :
    readV (writeV s r b) r' = if r' = r then b else readV s r' := by
  by_cases h : r' = r
  · subst h; simp [readV, writeV]
  · have : r.val ≠ r'.val := fun e => h (Fin.ext e.symm)
    simp [readV, writeV, h, Vector.getElem_set_ne _ _ this]

@[simp] theorem readV_writeI (s : State) (a : Word) (r : Reg) : readV (writeI s a) r = readV s r := rfl
@[simp] theorem readV_setPc (s : State) (a : Word) (r : Reg) : readV (setPc s a) r = readV s r := rfl
@[simp] theorem readV_advance (s : State) (r : Reg) : readV (advance s) r = readV s r := rfl
@[simp] theorem readV_showPixels (s : State) (fb : Pixels) (r : Reg) : readV (showPixels s fb) r = readV s r := rfl
@[simp] theorem readV_nextDraw (s : State) (r : Reg) : readV (nextDraw s) r = readV s r := rfl
@[simp] theorem readV_skipIf (c : Bool) (s : State) (r : Reg) : readV (skipIf c s) r = readV s r := by
  cases c <;> rfl

/-- The flag is in VF and the result in `V[x]`; with `x = 15` the result stands (rule R95). -/
@[simp] theorem readV_writeFlagThenResult (s : State) (x r : Reg) (f : Bool) (b : Byte) :
    readV (writeFlagThenResult s x f b) r = if r = x then b else if r = vf then flagByte f else readV s r := by
  simp only [writeFlagThenResult, readV_writeV]

/-! ### Memory and fetch -/

theorem memRead_congr {s t : State} (h : s.mem = t.mem) (a : Nat) : memRead s a = memRead t a := by
  simp only [memRead, h]

theorem fetchWord_congr {s t : State} (h : s.mem = t.mem) (pc : Word) : fetchWord s pc = fetchWord t pc := by
  simp only [fetchWord, memRead_congr h]

/-! ### The stack -/

/-- Push on a full stack fails (rule R15). -/
theorem push_full {s : State} (h : s.sp.val = 16) (a : Word) : push s a = none := by
  simp [push, h]

/-- Push below capacity: the value in the slot SP named, SP one higher, nothing else (rule R15). -/
theorem push_spec (s : State) (a : Word) (k : Fin 16) (h : s.sp.val = k.val) :
    ∃ t, push s a = some t ∧ t.sp.val = k.val + 1 ∧
      (∀ j : Fin 16, t.stack[j] = if j = k then a else s.stack[j]) ∧
      t.v = s.v ∧ t.i = s.i ∧ t.pc = s.pc ∧ t.mem = s.mem ∧ t.fb = s.fb ∧ t.dirty = s.dirty ∧ t.draws = s.draws := by
  have hk := k.isLt
  have hne : ¬ s.sp.val = Config.stackCap := by simp only [Config.stackCap]; omega
  refine ⟨_, dif_neg hne, ?_⟩
  refine ⟨congrArg (· + 1) h, fun j => ?_, rfl, rfl, rfl, rfl, rfl, rfl, rfl⟩
  simp only [Fin.getElem_fin, Vector.getElem_set, h]
  by_cases e : j = k
  · simp [e]
  · have : ¬ k.val = j.val := fun e' => e (Fin.ext e'.symm)
    simp [e, this]

/-- Pop on an empty stack fails (rule R16). -/
theorem pop_empty {s : State} (h : s.sp.val = 0) : pop s = none := by
  simp [pop, h]

/-- Pop above zero: the value of the slot below SP, SP one lower, every slot kept (rule R16). -/
theorem pop_spec (s : State) (k : Fin 16) (h : s.sp.val = k.val + 1) :
    ∃ t, pop s = some (t, s.stack[k]) ∧ t.sp.val = k.val ∧ t.stack = s.stack ∧
      t.v = s.v ∧ t.i = s.i ∧ t.pc = s.pc ∧ t.mem = s.mem ∧ t.fb = s.fb ∧ t.dirty = s.dirty ∧ t.draws = s.draws := by
  have hne : ¬ s.sp.val = 0 := by omega
  have hk : s.sp.val - 1 = k.val := by omega
  refine ⟨{ s with sp := ⟨k.val, by omega⟩ }, ?_, rfl, rfl, rfl, rfl, rfl, rfl, rfl, rfl, rfl⟩
  simp only [pop, dif_neg hne, hk, Fin.getElem_fin]

/-! ### Pixels -/

theorem pixelIndex_lt {row col : Nat} (hr : row < 32) (hc : col < 64) : pixelIndex row col < 2048 := by
  simp only [pixelIndex, Config.screenW]; omega

theorem pixelIndex_inj {row col row' col' : Nat} (hc : col < 64) (hc' : col' < 64) :
    pixelIndex row col = pixelIndex row' col' ↔ row = row' ∧ col = col' := by
  simp only [pixelIndex, Config.screenW]; omega

/-- Toggling one pixel inverts it and leaves every other pixel (rule R101). -/
theorem pixel_togglePixel (fb : Pixels) {row col row' col' : Nat} (hr : row < 32) (hc : col < 64) (hc' : col' < 64) :
    pixel (togglePixel fb row col) row' col' =
      if row' = row ∧ col' = col then !pixel fb row' col' else pixel fb row' col' := by
  have hi := pixelIndex_lt hr hc
  simp only [pixel, togglePixel, BitVec.getLsbD_xor, BitVec.getLsbD_twoPow]
  by_cases h : row' = row ∧ col' = col
  · obtain ⟨rfl, rfl⟩ := h
    simp [hi]
  · have : ¬ pixelIndex row col = pixelIndex row' col' := fun e => h ((pixelIndex_inj hc' hc).mp e.symm)
    simp [h, this]

/-- Framebuffers with the same pixels are the same (rule R18). -/
theorem pixels_ext {fb fb' : Pixels} (h : ∀ row < 32, ∀ col < 64, pixel fb row col = pixel fb' row col) : fb = fb' := by
  apply BitVec.eq_of_getLsbD_eq
  intro k hk
  have := h (k / 64) (by omega) (k % 64) (by omega)
  simpa [pixel, pixelIndex, Nat.div_add_mod'] using this

end Sys2Proof.Machine
end

