-- ==== Sys2Proof/Laws/Display.lean ====
section
/-! SUPPORT. What the sprite engine does: the blit is one toggle per set sprite bit, the cells those bits land on are pairwise
distinct, so each covered pixel is inverted once and a collision is a covered pixel that was on (rules R101 to R103). -/

namespace Sys2Proof.Machine

/-- The cells the set bits of one sprite row land on, from the left. -/
def rowCells (vx b : Byte) (row : Nat) : List (Nat × Nat) :=
  ((List.range 8).filter fun c => spriteBit b c).map fun c => (row, targetCol vx c)

/-- The cells the set bits of the rows land on, from row number `r` on. -/
def spriteCells (vx vy : Byte) : Nat → List Byte → List (Nat × Nat)
  | _, [] => []
  | r, b :: bs => rowCells vx b (targetRow vy r) ++ spriteCells vx vy (r + 1) bs

/-- Toggle every cell of a list in turn. -/
def blitCells (cells : List (Nat × Nat)) (cv : Canvas) : Canvas :=
  cells.foldl (fun cv p => blitBit cv p.1 p.2) cv

theorem targetRow_lt (vy : Byte) (r : Nat) : targetRow vy r < 32 := Nat.mod_lt _ (by decide)

theorem targetCol_lt (vx : Byte) (c : Nat) : targetCol vx c < 64 := Nat.mod_lt _ (by decide)

theorem blitRow_eq_blitCells (vx b : Byte) (row : Nat) (cv : Canvas) :
    blitRow vx b row cv = blitCells (rowCells vx b row) cv := by
  simp only [blitRow, blitCells, rowCells, List.foldl_map, List.foldl_filter]

theorem blitRows_eq_blitCells (vx vy : Byte) (r : Nat) (rows : List Byte) (cv : Canvas) :
    blitRows vx vy r rows cv = blitCells (spriteCells vx vy r rows) cv := by
  induction rows generalizing r cv with
  | nil => rfl
  | cons b bs ih => rw [blitRows, ih, spriteCells, blitRow_eq_blitCells, blitCells, blitCells, blitCells, List.foldl_append]

theorem mem_rowCells {vx b : Byte} {row : Nat} {p : Nat × Nat} :
    p ∈ rowCells vx b row ↔ ∃ c < 8, spriteBit b c = true ∧ p = (row, targetCol vx c) := by
  simp only [rowCells, List.mem_map, List.mem_filter, List.mem_range]
  exact ⟨fun ⟨c, ⟨h1, h2⟩, h3⟩ => ⟨c, h1, h2, h3.symm⟩, fun ⟨c, h1, h2, h3⟩ => ⟨c, ⟨h1, h2⟩, h3.symm⟩⟩

theorem mem_spriteCells {vx vy : Byte} {r : Nat} {rows : List Byte} {p : Nat × Nat} :
    p ∈ spriteCells vx vy r rows ↔
      ∃ j, ∃ h : j < rows.length, ∃ c < 8, spriteBit rows[j] c = true ∧ p = (targetRow vy (r + j), targetCol vx c) := by
  induction rows generalizing r with
  | nil => simp [spriteCells]
  | cons b bs ih =>
    rw [spriteCells, List.mem_append, mem_rowCells, ih]
    constructor
    · rintro (⟨c, hc, hb, hp⟩ | ⟨j, hj, c, hc, hb, hp⟩)
      · exact ⟨0, by simp, c, hc, hb, hp⟩
      · exact ⟨j + 1, by simpa using hj, c, hc, hb, by rw [hp]; congr 2; omega⟩
    · rintro ⟨j, hj, c, hc, hb, hp⟩
      cases j with
      | zero => exact .inl ⟨c, hc, hb, hp⟩
      | succ j => exact .inr ⟨j, by simpa using hj, c, hc, hb, by rw [hp]; congr 2; omega⟩

/-- Cells on the screen. -/
theorem mem_spriteCells_lt {vx vy : Byte} {r : Nat} {rows : List Byte} {p : Nat × Nat}
    (h : p ∈ spriteCells vx vy r rows) : p.1 < 32 ∧ p.2 < 64 := by
  obtain ⟨j, -, c, -, -, rfl⟩ := mem_spriteCells.mp h
  exact ⟨targetRow_lt _ _, targetCol_lt _ _⟩

theorem rowCells_nodup (vx b : Byte) (row : Nat) : (rowCells vx b row).Nodup := by
  refine List.Nodup.map_on ?_ (List.nodup_range.filter _)
  intro c hc d hd h
  have h1 := List.mem_range.mp (List.mem_filter.mp hc).1
  have h2 := List.mem_range.mp (List.mem_filter.mp hd).1
  have h3 : targetCol vx c = targetCol vx d := congrArg Prod.snd h
  simp only [targetCol, Config.screenW] at h3
  omega

/-- Up to 32 rows of 8 bits land on pairwise distinct cells (rule R101). -/
theorem spriteCells_nodup (vx vy : Byte) (r : Nat) (rows : List Byte) (h : rows.length ≤ 32) :
    (spriteCells vx vy r rows).Nodup := by
  induction rows generalizing r with
  | nil => exact List.nodup_nil
  | cons b bs ih =>
    simp only [List.length_cons] at h
    refine List.Nodup.append (rowCells_nodup vx b _) (ih (r + 1) (by omega)) ?_
    intro p hp hq
    obtain ⟨c, -, -, rfl⟩ := mem_rowCells.mp hp
    obtain ⟨j, hj, d, -, -, he⟩ := mem_spriteCells.mp hq
    have h1 : targetRow vy r = targetRow vy (r + 1 + j) := congrArg Prod.fst he
    simp only [targetRow, Config.screenH] at h1
    omega

/-- Toggling distinct cells of the screen: each pixel in the list is inverted, every other pixel is as it was, and a collision
is a pixel of the list that was on. -/
theorem blitCells_spec {cells : List (Nat × Nat)} (cv : Canvas) (hn : cells.Nodup)
    (hs : ∀ p ∈ cells, p.1 < 32 ∧ p.2 < 64) :
    (∀ row < 32, ∀ col < 64, pixel (blitCells cells cv).fb row col =
      if (row, col) ∈ cells then !pixel cv.fb row col else pixel cv.fb row col) ∧
    ((blitCells cells cv).hit = true ↔ cv.hit = true ∨ ∃ p ∈ cells, pixel cv.fb p.1 p.2 = true) := by
  induction cells generalizing cv with
  | nil => simp [blitCells]
  | cons q cells ih =>
    obtain ⟨hq, hn⟩ := List.nodup_cons.mp hn
    obtain ⟨hq1, hq2⟩ := hs q (by simp)
    obtain ⟨ih1, ih2⟩ := ih (blitBit cv q.1 q.2) hn (fun p hp => hs p (List.mem_cons_of_mem _ hp))
    have hstep : blitCells (q :: cells) cv = blitCells cells (blitBit cv q.1 q.2) := rfl
    have hpix : ∀ row < 32, ∀ col < 64, pixel (blitBit cv q.1 q.2).fb row col =
        if (row, col) = q then !pixel cv.fb row col else pixel cv.fb row col := by
      intro row hr col hc
      rw [blitBit, pixel_togglePixel _ hq1 hq2 hc]
      simp only [Prod.ext_iff]
    rw [hstep]
    constructor
    · intro row hr col hc
      rw [ih1 row hr col hc, hpix row hr col hc]
      by_cases he : (row, col) = q
      · subst he
        simp [hq]
      · simp [he]
    · rw [ih2]
      have hrest : (∃ p ∈ cells, pixel (blitBit cv q.1 q.2).fb p.1 p.2 = true) ↔
          ∃ p ∈ cells, pixel cv.fb p.1 p.2 = true := by
        refine exists_congr fun p => and_congr_right fun hp => ?_
        obtain ⟨h1, h2⟩ := hs p (List.mem_cons_of_mem _ hp)
        have hne : ¬ p = q := fun e => hq (e ▸ hp)
        rw [hpix p.1 h1 p.2 h2, if_neg hne]
      rw [hrest]
      simp only [blitBit, Bool.or_eq_true, List.mem_cons, exists_eq_or_imp]
      tauto

@[simp] theorem spriteRows_length (s : State) (n : Height) : (spriteRows s n).length = n.val := by
  simp [spriteRows]

/-- The cells of a DRW are the cells its sprite covers. -/
theorem mem_cells_iff_covers (s : State) (x y : Reg) (n : Height) (row col : Nat) :
    (row, col) ∈ spriteCells (readV s x) (readV s y) 0 (spriteRows s n) ↔ SpriteCovers s x y n row col := by
  rw [mem_spriteCells]
  constructor
  · rintro ⟨j, hj, c, hc, hb, he⟩
    rw [spriteRows_length] at hj
    obtain ⟨h1, h2⟩ := Prod.ext_iff.mp he
    refine ⟨j, c, hj, hc, ?_, by simpa [targetRow] using h1, by simpa [targetCol] using h2⟩
    simpa [spriteBit, spriteRows, spriteBase, maskAddr] using hb
  · rintro ⟨j, c, hj, hc, hb, h1, h2⟩
    refine ⟨j, by rwa [spriteRows_length], c, hc, ?_, ?_⟩
    · simpa [spriteBit, spriteRows, spriteBase, maskAddr] using hb
    · simp [targetRow, targetCol, h1, h2]

theorem SpriteCovers.lt {s : State} {x y : Reg} {n : Height} {row col : Nat} (h : SpriteCovers s x y n row col) :
    row < 32 ∧ col < 64 := by
  obtain ⟨r, c, -, -, -, rfl, rfl⟩ := h
  omega

/-- The blit of a DRW: the covered pixels are inverted, the others kept, and a collision is a covered pixel that was on. -/
theorem blit_spec (s : State) (x y : Reg) (n : Height) (fb : Pixels) :
    let cv := blit (readV s x) (readV s y) (spriteRows s n) fb
    (∀ row < 32, ∀ col < 64,
      (SpriteCovers s x y n row col → pixel cv.fb row col = !pixel fb row col) ∧
      (¬ SpriteCovers s x y n row col → pixel cv.fb row col = pixel fb row col)) ∧
    (cv.hit = true ↔ ∃ row col, SpriteCovers s x y n row col ∧ pixel fb row col = true) := by
  intro cv
  have hcv : cv = blitCells (spriteCells (readV s x) (readV s y) 0 (spriteRows s n)) ⟨fb, false⟩ :=
    blitRows_eq_blitCells _ _ _ _ _
  have hlen : (spriteRows s n).length ≤ 32 := by rw [spriteRows_length]; omega
  obtain ⟨h1, h2⟩ := blitCells_spec ⟨fb, false⟩ (spriteCells_nodup (readV s x) (readV s y) 0 _ hlen)
    fun p hp => mem_spriteCells_lt hp
  rw [← hcv] at h1 h2
  refine ⟨fun row hr col hc => ?_, ?_⟩
  · have := h1 row hr col hc
    rw [← mem_cells_iff_covers]
    constructor
    · intro h; rw [this, if_pos h]
    · intro h; rw [this, if_neg h]
  · rw [h2]
    constructor
    · rintro (h | ⟨p, hp, hon⟩)
      · cases h
      · exact ⟨p.1, p.2, (mem_cells_iff_covers ..).mp hp, hon⟩
    · rintro ⟨row, col, hc, hon⟩
      exact .inr ⟨(row, col), (mem_cells_iff_covers ..).mpr hc, hon⟩

end Sys2Proof.Machine
end

