-- ==== Sys2Proof/Laws/EndOfRun.lean ====
section
/-! SUPPORT. What the end of a run says of the next step (rule R149, the spec's decision D20). -/

namespace Sys2Proof.Machine

/-- A run spins exactly when the instruction at PC is a JP whose operand is PC. -/
theorem spins_iff (s : State) : spins s = true ↔ ∃ nnn, fetchDecode s = .ok (.jp nnn) ∧ zextAddr nnn = s.pc := by
  unfold spins
  split <;> simp_all

/-- FETCH and DECODE give a JP exactly at the word of its encoding (rules R54, R61). -/
theorem fetchDecode_eq_jp_iff (s : State) (nnn : Addr) :
    fetchDecode s = .ok (.jp nnn) ↔ (fetchWord s s.pc).toNat = 0x1000 + nnn.toNat := by
  rw [← decodeWord_eq_jp_iff, fetchDecode]
  split <;> simp_all

/-- The step of a spin completes and changes nothing (rules R71, R149). -/
theorem step_of_spins {s : State} (h : spins s = true) : step s = .next s := by
  obtain ⟨nnn, hd, hp⟩ := (spins_iff s).mp h
  have : exec (.jp nnn) s = .next s := by
    change Host.Outcome.next (setPc s (zextAddr nnn)) = _
    rw [hp]; rfl
  simpa only [step, hd] using this

/-- What each answer of `runEnd` says of the step that would follow. -/
theorem runEnd_spec (s : State) :
    match runEnd s with
    | some .spin => spins s = true
    | some (.fault k) => step s = .fault k
    | some (.notExecuted r) => step s = .refused r
    | none => spins s = false ∧ ∃ t, step s = .next t := by
  unfold runEnd
  by_cases hs : spins s = true
  · simp [hs]
  · cases hst : step s <;> simp_all

/-- A run that has ended stays where it is: the next step leaves the state as it was (rules R131, R149). -/
theorem step_of_runEnd {s : State} {e : RunEnd} (h : runEnd s = some e) : (transact .step s).1 = s := by
  have hr := runEnd_spec s
  rw [h] at hr
  cases e with
  | spin => simp only [transact, step_of_spins hr, settle]
  | fault k => simp only [transact, hr, settle]
  | notExecuted r => simp only [transact, hr, settle]

theorem runToEnd_ended {s : State} {e : RunEnd} (h : runEnd s = some e) (k : Nat) : runToEnd k s = (s, some e) := by
  cases k <;> simp only [runToEnd, h]

theorem runToEnd_going {s : State} (h : runEnd s = none) (k : Nat) :
    runToEnd (k + 1) s = runToEnd k (transact .step s).1 := by
  simp only [runToEnd, h]

end Sys2Proof.Machine
end

