-- ==== Sys2Proof/Laws/Flags.lean ====
section
/-! SUPPORT. The arithmetic of operands, results and flags as numbers (rules R53, R94). -/

namespace Sys2Proof.Machine

@[simp] theorem zextAddr_toNat (nnn : Addr) : (zextAddr nnn).toNat = nnn.toNat := by
  have := nnn.isLt
  simp only [zextAddr, BitVec.toNat_setWidth, BitVec.truncate_eq_setWidth]
  omega

@[simp] theorem jumpOffset_toNat (nnn : Addr) (b : Byte) : (jumpOffset nnn b).toNat = nnn.toNat + b.toNat := by
  have := nnn.isLt
  have := b.isLt
  simp only [jumpOffset, BitVec.toNat_ofNat]
  omega

@[simp] theorem flagByte_toNat (f : Bool) : (flagByte f).toNat = if f then 1 else 0 := by cases f <;> rfl

@[simp] theorem addResult_toNat (a b : Byte) : (addResult a b).toNat = (a.toNat + b.toNat) % 256 :=
  BitVec.toNat_ofNat ..

theorem subResult_toNat (a b : Byte) : ((subResult a b).toNat : Int) = ((a.toNat : Int) - b.toNat) % 256 := by
  simp only [subResult, BitVec.toNat_ofInt]
  omega

@[simp] theorem shrResult_toNat (a : Byte) : (shrResult a).toNat = a.toNat / 2 := by
  simp [shrResult, Nat.shiftRight_eq_div_pow]

@[simp] theorem shlResult_toNat (a : Byte) : (shlResult a).toNat = 2 * a.toNat % 256 := by
  simp [shlResult, Nat.shiftLeft_eq, Nat.mul_comm]

theorem shrBit_eq (a : Byte) : shrBit a = decide (a.toNat % 2 = 1) := by
  simp [shrBit, BitVec.getLsbD]

theorem shlBit_eq (a : Byte) : shlBit a = decide (a.toNat / 128 = 1) := by
  have h : ∀ a : Byte, a.getLsbD 7 = decide (a.toNat / 128 = 1) := by decide
  exact h a

/-- The bit shifted out, as the number VF holds. -/
theorem flagByte_shrBit (a : Byte) : (flagByte (shrBit a)).toNat = a.toNat % 2 := by
  rw [flagByte_toNat, shrBit_eq]
  by_cases h : a.toNat % 2 = 1 <;> simp [h]; omega

theorem flagByte_shlBit (a : Byte) : (flagByte (shlBit a)).toNat = a.toNat / 128 := by
  have := a.isLt
  rw [flagByte_toNat, shlBit_eq]
  by_cases h : a.toNat / 128 = 1 <;> simp [h]; omega

/-- Doubling by a shift is adding a register to itself: result and flag (rules R89, R93). -/
theorem shl_eq_add_self (a : Byte) : shlResult a = addResult a a ∧ shlBit a = addCarry a a := by
  have := a.isLt
  refine ⟨BitVec.eq_of_toNat_eq (by rw [shlResult_toNat, addResult_toNat]; congr 1; omega), ?_⟩
  rw [shlBit_eq, addCarry]
  congr 1
  apply propext
  omega

end Sys2Proof.Machine
end

