-- ==== Sys2Proof/Laws/Exec.lean ====
section
/-! SUPPORT. The three instructions that make a check before they write: what each does when the check passes, and how it stops
when it fails (rules R63, R70, R72, R101). The other meanings are one `next` over named updates. -/

namespace Sys2Proof.Machine

/-- SP is full or names a free slot. -/
theorem sp_full_or_slot (s : State) : s.sp.val = 16 ∨ ∃ k : Fin 16, s.sp.val = k.val := by
  have := s.sp.isLt
  by_cases h : s.sp.val = 16
  · exact .inl h
  · exact .inr ⟨⟨s.sp.val, by omega⟩, rfl⟩

/-- SP is 0 or stands above an occupied slot. -/
theorem sp_empty_or_slot (s : State) : s.sp.val = 0 ∨ ∃ k : Fin 16, s.sp.val = k.val + 1 := by
  have := s.sp.isLt
  by_cases h : s.sp.val = 0
  · exact .inl h
  · exact .inr ⟨⟨s.sp.val - 1, by omega⟩, by simp only; omega⟩

theorem execCall_full {s : State} (h : s.sp.val = 16) (nnn : Addr) : execCall nnn s = .fault .stackOverflow := by
  simp [execCall, push_full h, raise]

/-- CALL below capacity (rule R72). -/
theorem execCall_slot (s : State) (nnn : Addr) (k : Fin 16) (h : s.sp.val = k.val) :
    ∃ t, execCall nnn s = .next t ∧ t.sp.val = k.val + 1 ∧ t.pc = zextAddr nnn ∧
      (∀ j : Fin 16, t.stack[j] = if j = k then s.pc + 2 else s.stack[j]) ∧
      t.v = s.v ∧ t.i = s.i ∧ t.mem = s.mem ∧ t.fb = s.fb ∧ t.dirty = s.dirty ∧ t.draws = s.draws := by
  obtain ⟨t, ht, hsp, hst, hv, hi, -, hm, hf, hd, hr⟩ := push_spec s (s.pc + 2) k h
  exact ⟨setPc t (zextAddr nnn), by simp only [execCall, ht], hsp, rfl, hst, hv, hi, hm, hf, hd, hr⟩

theorem execRet_empty {s : State} (h : s.sp.val = 0) : execRet s = .fault .stackUnderflow := by
  simp [execRet, pop_empty h, raise]

/-- RET above depth 0 (rule R70). -/
theorem execRet_slot (s : State) (k : Fin 16) (h : s.sp.val = k.val + 1) :
    ∃ t, execRet s = .next t ∧ t.sp.val = k.val ∧ t.pc = s.stack[k] ∧ t.stack = s.stack ∧
      t.v = s.v ∧ t.i = s.i ∧ t.mem = s.mem ∧ t.fb = s.fb ∧ t.dirty = s.dirty ∧ t.draws = s.draws := by
  obtain ⟨t, ht, hsp, hst, hv, hi, -, hm, hf, hd, hr⟩ := pop_spec s k h
  exact ⟨setPc t s.stack[k], by simp only [execRet, ht], hsp, rfl, hst, hv, hi, hm, hf, hd, hr⟩

theorem spriteInRange_iff (s : State) (n : Height) :
    spriteInRange s n = true ↔ s.i.toNat % 4096 + n.val ≤ 4096 :=
  decide_eq_true_iff

theorem execDrw_outside {s : State} {n : Height} (h : s.i.toNat % 4096 + n.val > 4096) (x y : Reg) :
    execDrw x y n s = .fault .addressOutOfRange := by
  have : ¬ spriteInRange s n = true := by rw [spriteInRange_iff]; omega
  simp [execDrw, this, raise]

/-- DRW with its rows inside memory (rule R101). -/
theorem execDrw_inside {s : State} {n : Height} (h : s.i.toNat % 4096 + n.val ≤ 4096) (x y : Reg) :
    execDrw x y n s = .next (advance (showPixels
      (writeV s vf (flagByte (blit (readV s x) (readV s y) (spriteRows s n) s.fb).hit))
      (blit (readV s x) (readV s y) (spriteRows s n) s.fb).fb)) := by
  have : spriteInRange s n = true := (spriteInRange_iff s n).mpr h
  simp [execDrw, this]

/-- A DRW that completed had its rows inside memory. -/
theorem execDrw_next {s t : State} {x y : Reg} {n : Height} (h : execDrw x y n s = .next t) :
    s.i.toNat % 4096 + n.val ≤ 4096 := by
  by_contra hn
  rw [execDrw_outside (by omega)] at h
  cases h

/-- A CALL that completed found a free slot. -/
theorem execCall_next {s t : State} {nnn : Addr} (h : execCall nnn s = .next t) : ∃ k : Fin 16, s.sp.val = k.val := by
  rcases sp_full_or_slot s with hf | hk
  · rw [execCall_full hf] at h; cases h
  · exact hk

/-- A RET that completed found an occupied slot. -/
theorem execRet_next {s t : State} (h : execRet s = .next t) : ∃ k : Fin 16, s.sp.val = k.val + 1 := by
  rcases sp_empty_or_slot s with hf | hk
  · rw [execRet_empty hf] at h; cases h
  · exact hk

end Sys2Proof.Machine
end

