-- ==== Sys2Proof/Laws/PerInstr.lean ====
section
/-! SUPPORT. A statement about every instruction as syntax, with one lemma per constructor: the encoder's word lies in the
instruction's own row of the opcode map (rule R54). -/

namespace Sys2Proof.Laws.OwnRow

/-- The word `encode i` has the fixed bits of a row of the opcode map that carries the instruction's mnemonic. -/
def Statement (i : Instr) : Prop :=
  ∃ r ∈ opcodeRows, r.mnemonic = i.mnemonic ∧ r.selects (encode i) = true

/-- The mask 0xF000 keeps the four bits above a 12-bit operand. -/
theorem mask_top (op : BitVec 4) (b : BitVec 12) : (op ++ b) &&& 0xF000#16 = op ++ 0#12 := by
  have hm : (0xF000#16) = 15#4 ++ 0#12 := by decide
  have hop : op &&& 15#4 = op := by revert op; decide
  have hb : b &&& 0#12 = 0#12 := BitVec.and_zero
  rw [hm, BitVec.and_append, hop, hb]

/-- The mask 0xF00F keeps the top and the low four bits. -/
theorem mask_top_low (op n : BitVec 4) (b : BitVec 8) :
    (op ++ (b ++ n)) &&& 0xF00F#16 = op ++ (0#8 ++ n) := by
  have hm : (0xF00F#16) = 15#4 ++ (0#8 ++ 15#4) := by decide
  have hop (k : BitVec 4) : k &&& 15#4 = k := by revert k; decide
  have hb : b &&& 0#8 = 0#8 := BitVec.and_zero
  rw [hm, BitVec.and_append, BitVec.and_append, hop, hop, hb]

theorem formatXK_eq_append (op : BitVec 4) (x : Reg) (kk : Byte) :
    formatXK op x kk = op ++ ((BitVec.ofFin x : BitVec 4) ++ kk) :=
  (BitVec.append_assoc ..).trans (BitVec.cast_eq ..)

theorem formatXYN_eq_append (op : BitVec 4) (x y : Reg) (n : BitVec 4) :
    formatXYN op x y n = op ++ (((BitVec.ofFin x : BitVec 4) ++ (BitVec.ofFin y : BitVec 4)) ++ n) := by
  have h : op ++ (BitVec.ofFin x : BitVec 4) ++ (BitVec.ofFin y : BitVec 4)
      = op ++ ((BitVec.ofFin x : BitVec 4) ++ (BitVec.ofFin y : BitVec 4)) :=
    (BitVec.append_assoc ..).trans (BitVec.cast_eq ..)
  rw [formatXYN, h]
  exact (BitVec.append_assoc ..).trans (BitVec.cast_eq ..)

theorem selects_formatA (m : String) (op : BitVec 4) (nnn : Addr) :
    OpcodeRow.selects ⟨m, 0xF000#16, op ++ 0#12⟩ (formatA op nnn) = true :=
  beq_iff_eq.mpr (mask_top op nnn)

theorem selects_formatXK (m : String) (op : BitVec 4) (x : Reg) (kk : Byte) :
    OpcodeRow.selects ⟨m, 0xF000#16, op ++ 0#12⟩ (formatXK op x kk) = true := by
  rw [formatXK_eq_append]; exact beq_iff_eq.mpr (mask_top op _)

theorem selects_formatXYN (m : String) (op : BitVec 4) (x y : Reg) (n : BitVec 4) :
    OpcodeRow.selects ⟨m, 0xF000#16, op ++ 0#12⟩ (formatXYN op x y n) = true := by
  rw [formatXYN_eq_append]; exact beq_iff_eq.mpr (mask_top op _)

theorem selects_formatXYN_low (m : String) (op : BitVec 4) (x y : Reg) (n : BitVec 4) :
    OpcodeRow.selects ⟨m, 0xF00F#16, op ++ (0#8 ++ n)⟩ (formatXYN op x y n) = true := by
  rw [formatXYN_eq_append]; exact beq_iff_eq.mpr (mask_top_low op n _)

theorem cls : Statement .cls := ⟨⟨"CLS", 0xFFFF, 0x00E0⟩, by decide, rfl, by decide⟩

theorem ret : Statement .ret := ⟨⟨"RET", 0xFFFF, 0x00EE⟩, by decide, rfl, by decide⟩

theorem jp (nnn : Addr) : Statement (.jp nnn) :=
  ⟨⟨"JP_addr", 0xF000, 0x1000⟩, by decide, rfl, selects_formatA _ 0x1 nnn⟩

theorem call (nnn : Addr) : Statement (.call nnn) :=
  ⟨⟨"CALL_addr", 0xF000, 0x2000⟩, by decide, rfl, selects_formatA _ 0x2 nnn⟩

theorem ldI (nnn : Addr) : Statement (.ldI nnn) :=
  ⟨⟨"LD_I__addr", 0xF000, 0xA000⟩, by decide, rfl, selects_formatA _ 0xA nnn⟩

theorem jpV0 (nnn : Addr) : Statement (.jpV0 nnn) :=
  ⟨⟨"JP_V0__addr", 0xF000, 0xB000⟩, by decide, rfl, selects_formatA _ 0xB nnn⟩

theorem seByte (x : Reg) (kk : Byte) : Statement (.seByte x kk) :=
  ⟨⟨"SE_Vx__byte", 0xF000, 0x3000⟩, by decide, rfl, selects_formatXK _ 0x3 x kk⟩

theorem sneByte (x : Reg) (kk : Byte) : Statement (.sneByte x kk) :=
  ⟨⟨"SNE_Vx__byte", 0xF000, 0x4000⟩, by decide, rfl, selects_formatXK _ 0x4 x kk⟩

theorem ldByte (x : Reg) (kk : Byte) : Statement (.ldByte x kk) :=
  ⟨⟨"LD_Vx__byte", 0xF000, 0x6000⟩, by decide, rfl, selects_formatXK _ 0x6 x kk⟩

theorem addByte (x : Reg) (kk : Byte) : Statement (.addByte x kk) :=
  ⟨⟨"ADD_Vx__byte", 0xF000, 0x7000⟩, by decide, rfl, selects_formatXK _ 0x7 x kk⟩

theorem rnd (x : Reg) (kk : Byte) : Statement (.rnd x kk) :=
  ⟨⟨"RND_Vx__byte", 0xF000, 0xC000⟩, by decide, rfl, selects_formatXK _ 0xC x kk⟩

theorem seReg (x y : Reg) : Statement (.seReg x y) :=
  ⟨⟨"SE_Vx__Vy", 0xF000, 0x5000⟩, by decide, rfl, selects_formatXYN _ 0x5 x y 0x0⟩

theorem sneReg (x y : Reg) : Statement (.sneReg x y) :=
  ⟨⟨"SNE_Vx__Vy", 0xF000, 0x9000⟩, by decide, rfl, selects_formatXYN _ 0x9 x y 0x0⟩

theorem drw (x y : Reg) (n : Height) : Statement (.drw x y n) :=
  ⟨⟨"DRW_Vx__Vy__nibble", 0xF000, 0xD000⟩, by decide, rfl, selects_formatXYN _ 0xD x y (BitVec.ofFin n)⟩

theorem ldReg (x y : Reg) : Statement (.ldReg x y) :=
  ⟨⟨"LD_Vx__Vy", 0xF00F, 0x8000⟩, by decide, rfl, selects_formatXYN_low _ 0x8 x y 0x0⟩

theorem orReg (x y : Reg) : Statement (.orReg x y) :=
  ⟨⟨"OR_Vx__Vy", 0xF00F, 0x8001⟩, by decide, rfl, selects_formatXYN_low _ 0x8 x y 0x1⟩

theorem andReg (x y : Reg) : Statement (.andReg x y) :=
  ⟨⟨"AND_Vx__Vy", 0xF00F, 0x8002⟩, by decide, rfl, selects_formatXYN_low _ 0x8 x y 0x2⟩

theorem xorReg (x y : Reg) : Statement (.xorReg x y) :=
  ⟨⟨"XOR_Vx__Vy", 0xF00F, 0x8003⟩, by decide, rfl, selects_formatXYN_low _ 0x8 x y 0x3⟩

theorem addReg (x y : Reg) : Statement (.addReg x y) :=
  ⟨⟨"ADD_Vx__Vy", 0xF00F, 0x8004⟩, by decide, rfl, selects_formatXYN_low _ 0x8 x y 0x4⟩

theorem sub (x y : Reg) : Statement (.sub x y) :=
  ⟨⟨"SUB_Vx__Vy", 0xF00F, 0x8005⟩, by decide, rfl, selects_formatXYN_low _ 0x8 x y 0x5⟩

theorem shr (x y : Reg) : Statement (.shr x y) :=
  ⟨⟨"SHR_Vx____Vy", 0xF00F, 0x8006⟩, by decide, rfl, selects_formatXYN_low _ 0x8 x y 0x6⟩

theorem subn (x y : Reg) : Statement (.subn x y) :=
  ⟨⟨"SUBN_Vx__Vy", 0xF00F, 0x8007⟩, by decide, rfl, selects_formatXYN_low _ 0x8 x y 0x7⟩

theorem shl (x y : Reg) : Statement (.shl x y) :=
  ⟨⟨"SHL_Vx____Vy", 0xF00F, 0x800E⟩, by decide, rfl, selects_formatXYN_low _ 0x8 x y 0xE⟩

end Sys2Proof.Laws.OwnRow
end

