-- ==== Sys2Proof/Tests/Slice0.lean ====
section
/-! SUPPORT. The model's own tests. Words, states and results come from spec/95_test_vectors.md (vector ids V-… in the
comments) and the encodings of spec/30_encoding.md, none from a run. Each effect test is one step. -/

namespace Sys2Proof.Tests

open Sys2Proof.Machine

/-! ### Decoding: one word per constructor, from the patterns of rule R54 -/

theorem test_decode_cls : decodeWord 0b0000_0000_1110_0000 = .ok .cls := by decide
theorem test_decode_ret : decodeWord 0b0000_0000_1110_1110 = .ok .ret := by decide
theorem test_decode_jp : decodeWord 0b0001_1010_1011_1100 = .ok (.jp 0xABC) := by decide
theorem test_decode_call : decodeWord 0b0010_0010_0000_1000 = .ok (.call 0x208) := by decide
theorem test_decode_seByte : decodeWord 0b0011_1111_0000_0001 = .ok (.seByte 15 0x01) := by decide
theorem test_decode_sneByte : decodeWord 0b0100_0010_0001_0001 = .ok (.sneByte 2 0x11) := by decide
theorem test_decode_seReg : decodeWord 0b0101_0011_0100_0000 = .ok (.seReg 3 4) := by decide
theorem test_decode_seReg_low_nibble : decodeWord 0b0101_0011_0100_1010 = .ok (.seReg 3 4) := by decide
theorem test_decode_ldByte : decodeWord 0b0110_1111_1010_1011 = .ok (.ldByte 15 0xAB) := by decide
theorem test_decode_addByte : decodeWord 0b0111_0000_0010_0000 = .ok (.addByte 0 0x20) := by decide
theorem test_decode_ldReg : decodeWord 0b1000_0001_0010_0000 = .ok (.ldReg 1 2) := by decide
theorem test_decode_orReg : decodeWord 0b1000_0000_0001_0001 = .ok (.orReg 0 1) := by decide
theorem test_decode_andReg : decodeWord 0b1000_0000_0001_0010 = .ok (.andReg 0 1) := by decide
theorem test_decode_xorReg : decodeWord 0b1000_0000_0001_0011 = .ok (.xorReg 0 1) := by decide
theorem test_decode_addReg : decodeWord 0b1000_0010_1111_0100 = .ok (.addReg 2 15) := by decide
theorem test_decode_sub : decodeWord 0b1000_1111_0001_0101 = .ok (.sub 15 1) := by decide
theorem test_decode_shr : decodeWord 0b1000_0011_0001_0110 = .ok (.shr 3 1) := by decide
theorem test_decode_subn : decodeWord 0b1000_0000_0001_0111 = .ok (.subn 0 1) := by decide
theorem test_decode_shl : decodeWord 0b1000_0010_0001_1110 = .ok (.shl 2 1) := by decide
theorem test_decode_sneReg : decodeWord 0b1001_0101_0110_0000 = .ok (.sneReg 5 6) := by decide
theorem test_decode_ldI : decodeWord 0b1010_1111_1111_1111 = .ok (.ldI 0xFFF) := by decide
theorem test_decode_jpV0 : decodeWord 0b1011_0011_0100_0101 = .ok (.jpV0 0x345) := by decide
theorem test_decode_rnd : decodeWord 0b1100_0011_0000_1111 = .ok (.rnd 3 0x0F) := by decide
theorem test_decode_drw : decodeWord 0b1101_1111_0001_0101 = .ok (.drw 15 1 5) := by decide

/-- V-E2, V-E3, V-A40, and one byte alone. -/
theorem test_decode_rejects : decodeWord 0x0000 = .error .familyZero ∧ decodeWord 0x01E0 = .error .familyZero ∧
    decodeWord 0x00FE = .error .familyZero ∧ decodeWord 0x8018 = .error .familyEight ∧
    decodeWord 0x801D = .error .familyEight ∧ decodeWord 0x801F = .error .familyEight ∧
    decodeWord 0xE0A1 = .error .keyInputFamily ∧ decodeWord 0xFFFF = .error .timerFamily ∧
    decode [0x60] = .error .truncated ∧ decode [] = .error .truncated := by decide

/-- The encoder's words, from the program listings P1 to P4 of the spec. -/
theorem test_encode_listings : encodeBytes (.ldI 0x20A) = [0xA2, 0x0A] ∧ encodeBytes (.drw 0 1 5) = [0xD0, 0x15] ∧
    encodeBytes (.addReg 0 1) = [0x80, 0x14] ∧ encodeBytes (.seByte 1 0) = [0x31, 0x00] ∧
    encodeBytes (.call 0x208) = [0x22, 0x08] ∧ encodeBytes (.sub 0 1) = [0x80, 0x15] := by decide

/-- Listing lines of programs P4 and P7 and the image of P4. -/
theorem test_assembly : assembly (.ldI 0x20A) = "LD I, 0x20A" ∧ assembly (.drw 0 1 2) = "DRW V0, V1, 2" ∧
    assembly (.addReg 15 1) = "ADD VF, V1" ∧ assembly (.ldByte 15 0xFE) = "LD VF, 0xFE" ∧
    assemble [.instr (.ldI 0x20A), .instr (.ldByte 0 0x3F), .instr (.ldByte 1 0x1F), .instr (.drw 0 1 2),
      .instr (.drw 0 1 2), .db [0xFF, 0x81]] =
    [0xA2, 0x0A, 0x60, 0x3F, 0x61, 0x1F, 0xD0, 0x12, 0xD0, 0x12, 0xFF, 0x81] := by decide

theorem test_decodeTableWord : decodeTableWord 16 0xA20A = some (.ldI 0x20A) ∧ decodeTableWord 16 0xF007 = none := by
  decide

/-! ### Well-formedness: an ill-formed term for each check -/

theorem test_wf_refuses_family_zero : wordWellFormed 0x00E1 = false := by decide
theorem test_wf_refuses_family_eight : wordWellFormed 0x8018 = false := by decide
theorem test_wf_refuses_key_family : wordWellFormed 0xE09E = false := by decide
theorem test_wf_refuses_timer_family : wordWellFormed 0xF007 = false := by decide
theorem test_wf_accepts : wordWellFormed 0x534A = true ∧ wordWellFormed 0x00EE = true ∧ wordWellFormed 0x8FFE = true := by
  decide
/-- V-H2, V-H3: 3584 bytes fit, 3585 do not. -/
theorem test_wf_image : imageWellFormed (List.replicate 3584 0) = true ∧ imageWellFormed (List.replicate 3585 0) = false := by
  simp only [imageWellFormed, List.length_replicate]; decide
theorem test_wf_memory : Memory.wf [(0x200, 1), (0x201, 2)] ∧ ¬ Memory.wf [(0x201, 1), (0x200, 2)] ∧
    ¬ Memory.wf [(0x1000, 1)] ∧ ¬ Memory.wf [(0x200, 0)] ∧ ¬ Memory.wf [(0x000, 0xF0)] := by decide
theorem test_no_two_rows_overlap : opcodeRows.Pairwise (fun a b => a.fixed &&& b.mask ≠ b.fixed &&& a.mask) := by decide

/-! ### Effects -/

/-- Reset with some registers set. -/
def withV (vs : List (Reg × Byte)) : State := vs.foldl (fun s p => writeV s p.1 p.2) State.reset

/-- The state after one step on a word placed at PC. -/
def after (s : State) (w : Nat) : Option State :=
  match step (s.withFetchWord 16 w) with
  | .next t => some t
  | .fault _ => none
  | .refused _ => none

/-- The fault of one step on a word placed at PC. -/
def stops (s : State) (w : Nat) : Option Fault :=
  match step (s.withFetchWord 16 w) with
  | .next _ => none
  | .fault k => some k
  | .refused _ => none

/-- A register and VF after one step, with PC. -/
def regAfter (r : Reg) (s : State) (w : Nat) : Option (Byte × Byte × Word) :=
  (after s w).map fun t => (readV t r, readV t vf, t.pc)

/-- PC after one step. -/
def pcAfter (s : State) (w : Nat) : Option Word := (after s w).map (·.pc)

/-- The framebuffer whose pixels at the listed flat indices are on. -/
def pixelsOn (ks : List Nat) : Pixels := ks.foldl (fun fb k => fb ||| BitVec.twoPow 2048 k) 0

/-- Framebuffer, VF and Dirty after one step. -/
def screenAfter (s : State) (w : Nat) : Option (Pixels × Byte × Bool) :=
  (after s w).map fun t => (t.fb, readV t vf, t.dirty)

/-- V-C1, V-C3. -/
theorem test_jp : pcAfter State.reset 0x1ABC = some 0x0ABC ∧ pcAfter State.reset 0x1001 = some 0x0001 := by decide
/-- V-C2: the spin changes nothing. -/
theorem test_jp_spin : after (setPc State.reset 0x206) 0x1206 = some ((setPc State.reset 0x206).withFetchWord 16 0x1206) := by
  decide +kernel
/-- V-C4. -/
theorem test_call : (after (setPc State.reset 0x202) 0x2208).map (fun t => (t.stack[0], t.sp.val, t.pc)) =
    some (0x0204, 1, 0x0208) := by decide
/-- V-C5, V-C6. -/
theorem test_call_last_slot_and_overflow :
    (after { setPc State.reset 0x300 with sp := 15 } 0x2400).map (fun t => (t.stack[15], t.sp.val, t.pc)) =
      some (0x0302, 16, 0x0400) ∧
    stops { setPc State.reset 0x300 with sp := 16 } 0x2400 = some .stackOverflow := by decide
/-- V-C7: the slot stays. -/
theorem test_ret : (after { setPc State.reset 0x20C with sp := 1, stack := State.reset.stack.set 0 0x0204 } 0x00EE).map
    (fun t => (t.stack[0], t.sp.val, t.pc)) = some (0x0204, 0, 0x0204) := by decide
/-- V-C8. -/
theorem test_ret_underflow : stops State.reset 0x00EE = some .stackUnderflow := by decide
/-- V-C10: the sum is not masked. -/
theorem test_jpV0_unmasked : pcAfter (withV [(0, 0xFF)]) 0xBFFF = some 0x10FE := by decide
/-- V-C11: V3 plays no part. -/
theorem test_jpV0_uses_v0 : pcAfter (withV [(3, 0x77)]) 0xB345 = some 0x0345 := by decide

/-- V-S1, V-S2. -/
theorem test_seByte : pcAfter (setPc State.reset 0x208) 0x3100 = some 0x20C ∧
    pcAfter (setPc (withV [(1, 1)]) 0x208) 0x3100 = some 0x20A := by decide
/-- V-S13: PC wraps. -/
theorem test_seByte_wraps : pcAfter (setPc State.reset 0xFFFE) 0x3000 = some 0x0002 := by decide
/-- V-S3, V-S4. -/
theorem test_sneByte : pcAfter (setPc (withV [(2, 0x10)]) 0x300) 0x4211 = some 0x304 ∧
    pcAfter (setPc (withV [(2, 0x10)]) 0x300) 0x4210 = some 0x302 := by decide
/-- V-S5, V-S6. -/
theorem test_seReg : pcAfter (setPc (withV [(3, 0x7F), (4, 0x7F)]) 0x400) 0x5340 = some 0x404 ∧
    pcAfter (setPc (withV [(3, 0x7F), (4, 0x80)]) 0x400) 0x5340 = some 0x402 := by decide
/-- V-S8, V-S9. -/
theorem test_sneReg : pcAfter (setPc (withV [(5, 1), (6, 2)]) 0x500) 0x9560 = some 0x504 ∧
    pcAfter (setPc (withV [(5, 1), (6, 1)]) 0x500) 0x9560 = some 0x502 := by decide
/-- V-S14: I is not changed. -/
theorem test_sneReg_keeps_i : (after (writeI (withV [(5, 1), (6, 2)]) 0x123) 0x9560).map (·.i) = some 0x123 := by decide

/-- V-L1, V-L2. -/
theorem test_ldByte : regAfter 0 State.reset 0x6002 = some (0x02, 0x00, 0x202) ∧
    regAfter 15 (withV [(15, 1)]) 0x6FAB = some (0xAB, 0xAB, 0x202) := by decide
/-- V-L5, V-L6: no carry flag. -/
theorem test_addByte : regAfter 0 (withV [(0, 0xFF), (15, 0x55)]) 0x7001 = some (0x00, 0x55, 0x202) ∧
    regAfter 15 (withV [(15, 0xFF)]) 0x7F02 = some (0x01, 0x01, 0x202) := by decide
/-- V-L8. -/
theorem test_ldI : (after State.reset 0xAFFF).map (fun t => (t.i, t.pc)) = some (0x0FFF, 0x202) := by decide
/-- V-L9, V-L11: RND for two bytes on the input. -/
theorem test_rnd : readV (rndWith 0xB7 3 0x0F State.reset) 3 = 0x07 ∧ readV (rndWith 0xFF 3 0xFF State.reset) 3 = 0xFF := by
  decide

/-- V-A1. -/
theorem test_ldReg : regAfter 1 (withV [(2, 0x5A), (15, 1)]) 0x8120 = some (0x5A, 0x01, 0x202) := by decide
/-- V-A2. -/
theorem test_orReg : regAfter 0 (withV [(0, 0xF0), (1, 0x0C), (15, 1)]) 0x8011 = some (0xFC, 0x01, 0x202) := by decide
/-- V-A3. -/
theorem test_andReg : regAfter 0 (withV [(0, 0xF0), (1, 0x3C), (15, 1)]) 0x8012 = some (0x30, 0x01, 0x202) := by decide
/-- V-A4. -/
theorem test_xorReg : regAfter 0 (withV [(0, 0xF0), (1, 0x3C), (15, 1)]) 0x8013 = some (0xCC, 0x01, 0x202) := by decide
/-- V-A7, V-A8. -/
theorem test_addReg : regAfter 0 (withV [(0, 0xFF), (1, 0x01)]) 0x8014 = some (0x00, 1, 0x202) ∧
    regAfter 0 (withV [(0, 0xFF), (15, 1)]) 0x8014 = some (0xFF, 0, 0x202) := by decide
/-- V-A11, V-A12: VF as destination and as source. -/
theorem test_addReg_vf : regAfter 15 (withV [(1, 0x05), (15, 0xFE)]) 0x8F14 = some (0x03, 0x03, 0x202) ∧
    regAfter 2 (withV [(2, 0x10), (15, 0xF5)]) 0x82F4 = some (0x05, 1, 0x202) := by decide
/-- V-A14, V-A16. -/
theorem test_sub : regAfter 0 (withV [(0, 0x0A), (1, 0x0C), (15, 1)]) 0x8015 = some (0xFE, 0, 0x202) ∧
    regAfter 0 (withV [(0, 0x10), (1, 0x10)]) 0x8015 = some (0x00, 1, 0x202) := by decide
/-- V-A20, V-A21. -/
theorem test_sub_vf : regAfter 15 (withV [(1, 0x03), (15, 0x05)]) 0x8F15 = some (0x02, 0x02, 0x202) ∧
    regAfter 2 (withV [(2, 0x10), (15, 0x20)]) 0x82F5 = some (0xF0, 0, 0x202) := by decide
/-- V-A22, V-A23. -/
theorem test_subn : regAfter 0 (withV [(0, 0x0A), (1, 0x0C)]) 0x8017 = some (0x02, 1, 0x202) ∧
    regAfter 0 (withV [(0, 0x0C), (1, 0x0A), (15, 1)]) 0x8017 = some (0xFE, 0, 0x202) := by decide
/-- V-A27. -/
theorem test_subn_vf : regAfter 15 (withV [(1, 0x09), (15, 0x0A)]) 0x8F17 = some (0xFF, 0xFF, 0x202) := by decide
/-- V-A29: V1 plays no part. -/
theorem test_shr : regAfter 3 (withV [(3, 0x05), (1, 0x55)]) 0x8316 = some (0x02, 1, 0x202) := by decide
/-- V-A33. -/
theorem test_shr_vf : regAfter 15 (withV [(15, 0x03)]) 0x8F06 = some (0x01, 0x01, 0x202) := by decide
/-- V-A35, V-A36. -/
theorem test_shl : regAfter 2 (withV [(2, 0x3F), (1, 0x99), (15, 1)]) 0x821E = some (0x7E, 0, 0x202) ∧
    regAfter 0 (withV [(0, 0x80)]) 0x801E = some (0x00, 1, 0x202) := by decide
/-- V-A39. -/
theorem test_shl_vf : regAfter 15 (withV [(15, 0xC1)]) 0x8F0E = some (0x82, 0x82, 0x202) := by decide

/-- V-D2. -/
theorem test_cls : screenAfter { withV [(15, 7)] with fb := pixelsOn [0, 77, 2047], dirty := false } 0x00E0 =
    some (0, 7, true) := by decide +kernel
/-- V-D14: the glyph of digit 0 at (62, 30), wrapped at both edges. -/
theorem test_drw_wraps : screenAfter (withV [(0, 62), (1, 30)]) 0xD015 =
    some (pixelsOn [1982, 1983, 1920, 1921, 2046, 1985, 62, 1, 126, 65, 190, 191, 128, 129], 0, true) := by
  decide +kernel
/-- V-D5, V-D13: a collision, and the coordinate latched before VF is cleared. -/
theorem test_drw_collision_and_vf_coordinate :
    screenAfter { writeI (memWrite State.reset 0x300 0xC0) 0x300 with fb := pixelsOn [0] } 0xD011 =
      some (pixelsOn [1], 1, true) ∧
    screenAfter (writeI (memWrite (withV [(15, 5)]) 0x300 0x80) 0x300) 0xDF11 = some (pixelsOn [5], 0, true) := by
  decide +kernel

/-- V-E1: reset holds no program. -/
theorem test_reset_step_faults : transact .step State.reset = (State.reset, .status (.error .decodeError)) := rfl
/-- V-E4: the second byte of a fetch at 0xFFF comes from address 0. -/
theorem test_fetch_wraps : (match step (memWrite (setPc State.reset 0x0FFF) 0xFFF 0x12) with
    | .next t => some t.pc | .fault _ => none | .refused _ => none) = some 0x02F0 := by decide
/-- V-E5, V-E6: PC above memory, and PC odd. -/
theorem test_fetch_masks : regAfter 0 (setPc State.reset 0x1200) 0x6007 = some (7, 0, 0x1202) ∧
    regAfter 1 (setPc State.reset 0x201) 0x6109 = some (9, 0, 0x203) := by decide
/-- V-H5: a second load keeps the bytes beyond it and every register. -/
theorem test_load_over : (transact (.loadProgram [0x12, 0x00])
    (memCopy (setPc State.reset 0x206) 0x200 [0xA0, 0x00, 0x60, 0x02])) =
    (memCopy (setPc State.reset 0x206) 0x200 [0x12, 0x00, 0x60, 0x02], .status .ok) := by decide +kernel
/-- V-H6, V-H7. -/
theorem test_handshake : (transact .framebufferChanged State.reset).2 = .changed true ∧
    transact .consumeFramebuffer State.reset = ({ State.reset with dirty := false }, .grid 0) := by decide +kernel
/-- Rule R125's codes. -/
theorem test_status_codes : [Status.ok, .error .decodeError, .error .stackOverflow, .error .stackUnderflow,
    .error .addressOutOfRange, .error .outOfBounds].map statusCode = [some 0, some 1, some 2, some 3, some 4, some 5] := by
  decide

/-- V-C2 spins; reset does not and ends with its fault (V-E1); a CALL on a full stack ends with its fault (V-C6); an LD goes on. -/
theorem test_runEnd : runEnd ((setPc State.reset 0x206).withFetchWord 16 0x1206) = some .spin ∧
    runEnd State.reset = some (.fault .decodeError) ∧
    runEnd ({ setPc State.reset 0x300 with sp := 16 }.withFetchWord 16 0x2400) = some (.fault .stackOverflow) ∧
    runEnd (State.reset.withFetchWord 16 0x6002) = none := by decide

/-- A JP to another address with the same low 12 bits is no spin: it changes PC (rules R71, R149). -/
theorem test_masked_jump_is_no_spin : spins ((setPc State.reset 0x1206).withFetchWord 16 0x1206) = false := by decide

/-! ### Witnesses: a concrete state and operands that meet the hypotheses of each statement that has some -/

/-- EveryWordSelectsItsRowOrNone, DecodedWordIsItsEncoding: a word that decodes in families 5, 9 and another, and one that
does not. -/
theorem witness_decoded_words : decodeWord 0x534A = .ok (.seReg 3 4) ∧ decodeWord 0x956F = .ok (.sneReg 5 6) ∧
    decodeWord 0x834E = .ok (.shl 3 4) ∧ decodeWord 0x834F = .error .familyEight ∧
    (0x534A : Word).toNat / 4096 = 5 ∧ (0x956F : Word).toNat / 4096 = 9 := by decide

theorem witness_LowNibbleOfRegisterSkipsIgnored :
    (0x5340 : Word).toNat / 4096 = 5 ∧ (0x534A : Word).toNat / 16 = (0x5340 : Word).toNat / 16 ∧
    (0x9560 : Word).toNat / 4096 = 9 ∧ (0x956F : Word).toNat / 16 = (0x9560 : Word).toNat / 16 := by decide

theorem witness_StepRunsTheDecodedInstruction :
    let w (s : State) : Word := s.mem.read (s.pc.toNat % 4096) ++ s.mem.read ((s.pc.toNat + 1) % 4096)
    decodeWord (w (memWrite (setPc State.reset 0x0FFF) 0xFFF 0x12)) = .ok (.jp 0x2F0) ∧
    decodeWord (w (State.reset.withFetchWord 16 0xFFFF)) = .error .timerFamily := by decide

/-- Each of the four illegal classes stands at PC. -/
theorem witness_IllegalWordsAreDecodeErrors :
    let w (s : State) := 256 * (memRead s s.pc.toNat).toNat + (memRead s (s.pc.toNat + 1)).toNat
    (w (State.reset.withFetchWord 16 0x00E1) / 4096 = 0x0 ∧ w (State.reset.withFetchWord 16 0x00E1) ≠ 0x00E0 ∧
      w (State.reset.withFetchWord 16 0x00E1) ≠ 0x00EE) ∧
    (w (State.reset.withFetchWord 16 0x801F) / 4096 = 0x8 ∧
      w (State.reset.withFetchWord 16 0x801F) % 16 ∈ [0x8, 0x9, 0xA, 0xB, 0xC, 0xD, 0xF]) ∧
    w (State.reset.withFetchWord 16 0xE09E) / 4096 = 0xE ∧ w (State.reset.withFetchWord 16 0xF065) / 4096 = 0xF := by
  decide

/-- The shortest and the longest image. -/
theorem witness_LoadedInstructionIsTheNextToRun : State.reset.mem.wf ∧ State.reset.pc = 0x0200 ∧
    ([] : List Byte).length + 2 ≤ 3584 ∧ (List.replicate 3582 (0 : Byte)).length + 2 ≤ 3584 := by
  simp only [List.length_replicate]; decide

theorem witness_JpSetsPc : State.reset.pc.toNat = (0x200 : Addr).toNat := by decide

/-- The first slot, the last slot and the full stack; the same for RET, with the empty stack. -/
theorem witness_stack_depths : State.reset.sp.val = (0 : Fin 16).val ∧
    ({ State.reset with sp := 15 } : State).sp.val = (15 : Fin 16).val ∧
    ({ State.reset with sp := 16 } : State).sp.val = 16 ∧
    ({ State.reset with sp := 1 } : State).sp.val = (0 : Fin 16).val + 1 ∧
    ({ State.reset with sp := 16 } : State).sp.val = (15 : Fin 16).val + 1 ∧ State.reset.sp.val = 0 := by decide

/-- A DRW from reset, where I is 0, completes. -/
theorem drw_from_reset (n : Height) : ∃ t, exec (.drw 0 1 n) State.reset = .next t ∧ readV t 0 = readV State.reset 0 ∧
    readV t 1 = readV State.reset 1 :=
  ⟨_, execDrw_inside (s := State.reset) (n := n) (by have := n.isLt; change 0 + n.val ≤ 4096; omega) 0 1, rfl, rfl⟩

/-- The state after `CALL 0x208` at reset, the called code having changed a register and I since. -/
theorem witness_RetAfterCallRestoresPc : ∃ t, exec (.call 0x208) State.reset = .next t ∧
    StackSame t (writeI (writeV t 3 9) 0x300) :=
  ⟨_, rfl, rfl, fun _ => rfl⟩

/-- OnlySixInstructionsWriteVfAsFlag and the frames: each group completes from reset with a destination that is not VF. -/
theorem witness_plain_results : ∃ t u w, exec (.ldByte 1 2) State.reset = .next t ∧ exec (.ldReg 1 2) State.reset = .next u ∧
    exec (.rnd 1 2) State.reset = .next w ∧ (1 : Reg) ≠ 15 ∧
    Instr.ldByte 1 2 ∈ ([.ldByte 1 2, .addByte 1 2, .rnd 1 2, .ldReg 1 2, .orReg 1 2, .andReg 1 2, .xorReg 1 2] : List Instr) ∧
    Instr.ldByte 1 2 ≠ .rnd 1 2 :=
  ⟨_, _, _, rfl, rfl, rfl, by decide, by decide, by decide⟩

theorem witness_FlagResultFrame : ∃ t, exec (.sub 1 2) State.reset = .next t ∧
    Instr.sub 1 2 ∈ ([.addReg 1 2, .sub 1 2, .shr 1 2, .subn 1 2, .shl 1 2] : List Instr) :=
  ⟨_, rfl, by decide⟩

theorem witness_JumpAndSkipFrame : ∃ t, exec (.jpV0 0x300) State.reset = .next t ∧
    Instr.jpV0 0x300 ∈ ([.jp 0x300, .jpV0 0x300, .seByte 1 3, .sneByte 1 3, .seReg 1 2, .sneReg 1 2] : List Instr) :=
  ⟨_, rfl, by decide⟩

theorem witness_CallAndRetFrame : ∃ t u, exec (.call 0x300) State.reset = .next t ∧
    exec .ret { State.reset with sp := 16 } = .next u ∧ (1 : Fin 16).val ≠ State.reset.sp.val :=
  ⟨_, _, rfl, rfl, by decide⟩

theorem witness_LdIFrame : ∃ t, exec (.ldI 0xFFF) State.reset = .next t := ⟨_, rfl⟩

theorem witness_DisplayFrame : (∃ t, exec .cls State.reset = .next t) ∧ ∃ u, exec (.drw 0 1 5) State.reset = .next u :=
  ⟨⟨_, rfl⟩, (drw_from_reset 5).imp fun _ h => h.1⟩

/-- DrwInvertsExactlyTheCoveredPixels and DrwFaultsExactlyBeyondMemory at the edge: V-D10 and V-D11. -/
theorem witness_drw_extent : (writeI State.reset 0xFF1).i.toNat % 4096 + (15 : Height).val ≤ 4096 ∧
    (writeI State.reset 0xFF2).i.toNat % 4096 + (15 : Height).val > 4096 := by decide

/-- Drawing the glyph of digit 0 at (0, 0) covers pixel (0, 0), which is on in one state and off in the other; a sprite of no
rows covers nothing. -/
theorem witness_sprite_covers : SpriteCovers State.reset 0 1 5 0 0 ∧ pixel State.reset.fb 0 0 = false ∧
    SpriteCovers { State.reset with fb := pixelsOn [0] } 0 1 5 0 0 ∧ pixel (pixelsOn [0]) 0 0 = true ∧
    ¬ SpriteCovers State.reset 0 1 0 0 0 :=
  ⟨⟨0, 0, by decide, by decide, by decide, by decide, by decide⟩, by decide +kernel,
    ⟨0, 0, by decide, by decide, by decide, by decide, by decide⟩, by decide +kernel,
    fun ⟨_, _, h, _⟩ => absurd h (by simp)⟩

/-- A sprite with a 1 bit drawn on a clear screen, and a sprite of no rows; both complete with the coordinates kept. -/
theorem witness_DrawingTwiceErases :
    (∃ t, exec (.drw 0 1 5) State.reset = .next t ∧ readV t 0 = readV State.reset 0 ∧ readV t 1 = readV State.reset 1) ∧
    (∃ row col, SpriteCovers State.reset 0 1 5 row col) ∧
    (∃ t, exec (.drw 0 1 0) State.reset = .next t ∧ readV t 0 = readV State.reset 0 ∧ readV t 1 = readV State.reset 1) ∧
    ¬ ∃ row col, SpriteCovers State.reset 0 1 0 row col :=
  ⟨drw_from_reset 5, ⟨0, 0, witness_sprite_covers.1⟩, drw_from_reset 0, fun ⟨_, _, _, _, h, _⟩ => absurd h (by simp)⟩

/-- The first draw of `witness_DrawingTwiceErases` meets no collision. -/
theorem witness_first_draw_clear : (blit (readV State.reset 0) (readV State.reset 1) (spriteRows State.reset 5)
    State.reset.fb).hit = false := by decide +kernel

/-- PcAfterEveryInstruction: a RET above an occupied slot. -/
theorem witness_PcAfterEveryInstruction : ∃ t, exec .ret { State.reset with sp := 16 } = .next t ∧
    ({ State.reset with sp := 16 } : State).sp.val = (15 : Fin 16).val + 1 := ⟨_, rfl, rfl⟩

/-- A CLS that changes the display and a CALL that changes the stack. -/
theorem witness_OnlyDisplayAndStackInstructionsReachBeyondRegisters :
    (∃ t, exec .cls { State.reset with dirty := false } = .next t ∧ ¬ DisplaySame { State.reset with dirty := false } t) ∧
    ∃ t, exec (.call 0x300) State.reset = .next t ∧ ¬ StackSame State.reset t :=
  ⟨⟨_, rfl, fun h => absurd h.2 (by decide)⟩, ⟨_, rfl, fun h => absurd h.1 (by decide)⟩⟩

/-- OnlyConstructAndLoadWriteMemory, LoadProgramCopiesItsBytes, LoadProgramOutOfBoundsExactlyWhenTooLong: images of 0, 2, 3584
and 3585 bytes, and an address on each side of a 2-byte image. -/
theorem witness_images : State.reset.mem.wf ∧ ([] : List Byte).length + 0x200 ≤ 4096 ∧
    (1 < ([0x12, 0x00] : List Byte).length) ∧ (List.replicate 3584 (0 : Byte)).length + 0x200 ≤ 4096 ∧
    (List.replicate 3585 (0 : Byte)).length + 0x200 > 4096 ∧
    (0x1FF < 0x200 ∧ 0x1FF < 4096) ∧ 0x200 + ([0x12, 0x00] : List Byte).length ≤ 0x202 := by
  simp only [List.length_replicate]; decide

/-- IndexWrittenByLdIReadByDrw: two values of I with the same remainder. -/
theorem witness_IndexWrittenByLdIReadByDrw : (0x1000 : Word).toNat % 4096 = State.reset.i.toNat % 4096 ∧
    (0x1000 : Word) ≠ State.reset.i := by decide

theorem witness_RandomInputReadOnlyByRnd : ∀ x kk, Instr.cls ≠ .rnd x kk := by intro x kk h; cases h

/-- Two states that differ in a stale slot, both able to step. -/
theorem witness_StaleStackSlotsAreUnobservable :
    let s := State.reset.withFetchWord 16 0x2208
    let t := { s with stack := s.stack.set 3 0x0204 }
    AgreeButStaleSlots s t ∧ s ≠ t ∧ SafeStep s :=
  ⟨⟨rfl, rfl, rfl, rfl, fun k hk => absurd hk (by change ¬ k.val < 0; omega), rfl, rfl, rfl, rfl⟩, by decide, _, rfl⟩

/-- A state inside a call, its return address after a CALL, at a CALL: the invariant holds and the step completes. -/
theorem witness_StepKeepsTheInvariant :
    let s : State := { State.reset.withFetchWord 16 0x2200 with sp := 1, stack := State.reset.stack.set 0 0x0202 }
    StepInv s ∧ SafeStep s := by
  refine ⟨⟨⟨by decide, ?_, by unfold IndexIsAddress; decide⟩, ?_⟩, _, rfl⟩
  · unfold LowRegionIntact; decide +kernel
  · intro k hk
    have hk0 : k = 0 := Fin.ext (by have : k.val < 1 := hk; simpa using this)
    subst hk0
    exact ⟨0x200, by decide⟩

theorem witness_HostTransactionsKeepTheInvariant : HostInv State.reset ∧ Reachable State.reset ∧
    Reachable (transact (.loadProgram [0x12, 0x00]) State.reset).1 :=
  ⟨⟨by decide, fun _ _ => rfl, by unfold IndexIsAddress; decide⟩, .reset, .transact _ .reset⟩

theorem witness_FramebufferChangedFollowsTheHandshake : (∃ t, exec .cls State.reset = .next t) ∧
    ∃ u, exec (.drw 0 1 5) State.reset = .next u := witness_DisplayFrame

/-- Both transactions that can end with an error do. -/
theorem witness_ErrorsLeaveStateAndRepeat : (transact .step State.reset).2 = .status (.error .decodeError) ∧
    (transact (.loadProgram (List.replicate 3585 0)) State.reset).2 = .status (.error .outOfBounds) := by
  refine ⟨rfl, ?_⟩
  simp only [transact, loadProgram, test_wf_image.2, Bool.false_eq_true, if_false]
  rfl

/-- A state that spins, at the lowest and the highest address a JP can name. -/
theorem witness_SpinIsAJumpToItself : spins ((setPc State.reset 0x000).withFetchWord 16 0x1000) = true ∧
    spins ((setPc State.reset 0xFFF).withFetchWord 16 0x1FFF) = true := by decide

/-- A JP and a JP V0 that stand still, the latter beyond 12 bits. -/
theorem witness_OnlyJumpsToThemselvesStandStill : (0x200 : Addr).toNat = State.reset.pc.toNat ∧
    (0xFFF : Addr).toNat + (readV (setPc (withV [(0, 0xFF)]) 0x10FE) 0).toNat =
      (setPc (withV [(0, 0xFF)]) 0x10FE).pc.toNat := by decide

/-- RunEndIsASpinOrAFault: each of the three answers is in `test_runEnd`. EndedRunStaysAsItIs: a run that jumps to its spin, and
one that has ended at once. -/
theorem witness_EndedRunStaysAsItIs :
    (∃ t, runToEnd 1 (memCopy State.reset 0x200 [0x12, 0x02, 0x12, 0x02]) = (t, some .spin)) ∧
    runToEnd 0 State.reset = (State.reset, some (.fault .decodeError)) :=
  ⟨⟨_, rfl⟩, rfl⟩

end Sys2Proof.Tests
end

section
/-! What each transaction leaves in memory (rule R38): no instruction writes it, `construct` gives every byte its reset
contents, and `load_program` is one copy of an image that fits or no change at all. -/

namespace Sys2Proof.Machine

/-! ### A step -/

/-- No instruction writes memory (rules R38, R68). -/
theorem exec_mem {i : Instr} {s t : State} (h : exec i s = .next t) : t.mem = s.mem := by
  cases i with
  | ret =>
    obtain ⟨k, hk⟩ := execRet_next h
    obtain ⟨u, hu, -, -, -, -, -, hmem, -⟩ := execRet_slot s k hk
    cases hu.symm.trans h
    exact hmem
  | call nnn =>
    obtain ⟨k, hk⟩ := execCall_next h
    obtain ⟨u, hu, -, -, -, -, -, hmem, -⟩ := execCall_slot s nnn k hk
    cases hu.symm.trans h
    exact hmem
  | drw x y n =>
    cases (execDrw_inside (execDrw_next h) x y).symm.trans h
    rfl
  | seByte | sneByte | seReg | sneReg =>
    cases h
    exact skipIf_mem _ s
  | _ =>
    cases h
    rfl

theorem step_mem {s t : State} (h : step s = .next t) : t.mem = s.mem := by
  unfold step at h
  split at h
  · exact exec_mem h
  · cases h

theorem transact_step_mem (s : State) : (transact .step s).1.mem = s.mem := by
  cases h : step s with
  | next t => simpa only [transact, h, settle] using step_mem h
  | fault k => simp only [transact, h, settle]
  | refused r => simp only [transact, h, settle]

/-! ### `construct` -/

/-- The reset contents end with the glyph table, at 0x04F (rules R25, R32). -/
theorem resetByte_eq_ite (a : Nat) : resetByte a = if a < 80 then glyphTable.getD a 0 else 0 := by
  split
  · rfl
  · exact List.getD_eq_default _ _ (show 80 ≤ a by omega)

theorem memRead_construct (s : State) (a : Nat) : memRead (construct s) a = resetByte (a % 4096) := rfl

/-! ### `load_program` -/

theorem imageWellFormed_iff (bytes : List Byte) : imageWellFormed bytes = true ↔ bytes.length + 0x200 ≤ 4096 :=
  decide_eq_true_iff

theorem transact_loadProgram_fits {bytes : List Byte} (h : bytes.length + 0x200 ≤ 4096) (s : State) :
    transact (.loadProgram bytes) s = (memCopy s 0x200 bytes, .status .ok) := by
  simp only [transact, loadProgram, if_pos ((imageWellFormed_iff bytes).mpr h), settle]

theorem transact_loadProgram_tooLong {bytes : List Byte} (h : bytes.length + 0x200 > 4096) (s : State) :
    transact (.loadProgram bytes) s = (s, .status (.error .outOfBounds)) := by
  have hill : ¬ imageWellFormed bytes = true := by rw [imageWellFormed_iff]; omega
  simp only [transact, loadProgram, if_neg hill, raise, settle]

/-- `memCopy_read` for an address inside memory, where the mask of rule R31 changes nothing. -/
theorem memRead_memCopy {s : State} (hwf : s.mem.wf) {base a : Nat} {bytes : List Byte}
    (hfit : base + bytes.length ≤ 4096) (ha : a < 4096) :
    memRead (memCopy s base bytes) a =
      if base ≤ a ∧ a < base + bytes.length then bytes.getD (a - base) 0 else memRead s a := by
  simp only [memRead, maskAddr_of_lt ha, memCopy_read hwf hfit]

/-- A loaded image lies at 0x200 and up (rule R112). -/
theorem memRead_loadProgram_image {s : State} (hwf : s.mem.wf) {bytes : List Byte}
    (hfit : bytes.length + 0x200 ≤ 4096) {k : Nat} (hk : k < bytes.length) :
    memRead (transact (.loadProgram bytes) s).1 (0x200 + k) = bytes.getD k 0 := by
  rw [transact_loadProgram_fits hfit, memRead_memCopy hwf (by omega) (by omega), if_pos (by omega),
    Nat.add_sub_cancel_left]

/-- Outside the addresses of the image a `load_program`, completed or rejected, changes nothing (rules R38, R112). -/
theorem memRead_loadProgram_outside {s : State} (hwf : s.mem.wf) {bytes : List Byte} {a : Nat} (ha : a < 4096)
    (hout : a < 0x200 ∨ 0x200 + bytes.length ≤ a) :
    memRead (transact (.loadProgram bytes) s).1 a = memRead s a := by
  by_cases hfit : bytes.length + 0x200 ≤ 4096
  · rw [transact_loadProgram_fits hfit, memRead_memCopy hwf (by omega) ha, if_neg (by omega)]
  · rw [transact_loadProgram_tooLong (by omega)]

/-- Settles O40, transaction by transaction. -/
theorem onlyConstructAndLoadWriteMemory : Obligations.OnlyConstructAndLoadWriteMemory := by
  intro s op hwf
  cases op with
  | construct => exact fun a => (memRead_construct s a).trans (resetByte_eq_ite _)
  | loadProgram bytes =>
    exact ⟨fun k hk hfit => memRead_loadProgram_image hwf hfit hk,
      fun a ha hout => memRead_loadProgram_outside hwf ha hout⟩
  | step => exact memRead_congr (transact_step_mem s)
  | consumeFramebuffer => exact memRead_congr (clearDirty_mem s)
  | framebufferChanged | readAccessor => exact fun _ => rfl

end Sys2Proof.Machine
end

section
/-! What a step does, by the word it fetches (rules R61, R62). -/

namespace Sys2Proof.Machine

/-- Each of the two addresses is masked on its own: a word at 0xFFF has its low byte at address 0 (rules R31, R34). -/
theorem fetchWord_eq_append (s : State) (pc : Word) :
    fetchWord s pc = s.mem.read (pc.toNat % 4096) ++ s.mem.read ((pc.toNat + 1) % 4096) := rfl

theorem fetchDecode_of_decodes {s : State} {i : Instr} (h : decodeWord (fetchWord s s.pc) = .ok i) :
    fetchDecode s = .ok i := by
  rw [fetchDecode, h]

theorem fetchDecode_of_rejects {s : State} {e : Reject} (h : decodeWord (fetchWord s s.pc) = .error e) :
    fetchDecode s = .error .decodeError := by
  rw [fetchDecode, h]

theorem step_of_fetchDecode_ok {s : State} {i : Instr} (h : fetchDecode s = .ok i) : step s = exec i s := by
  rw [step, h]

theorem step_of_fetchDecode_error {s : State} {k : Fault} (h : fetchDecode s = .error k) : step s = .fault k := by
  simp only [step, h, raise]

/-- Settles O6: the obligation's word is the one `fetchWord` reads at PC. -/
theorem stepRunsTheDecodedInstruction : Obligations.StepRunsTheDecodedInstruction := by
  intro s
  rw [← fetchWord_eq_append]
  exact ⟨fun _ hi => step_of_fetchDecode_ok (fetchDecode_of_decodes hi),
    fun _ he => step_of_fetchDecode_error (fetchDecode_of_rejects he)⟩

end Sys2Proof.Machine
end

section
/-! JP (rule R71). -/

namespace Sys2Proof.Machine

theorem exec_jp (nnn : Addr) (s : State) : exec (.jp nnn) s = .next (setPc s (zextAddr nnn)) := rfl

/-- Writing PC back changes nothing. -/
@[simp] theorem setPc_self (s : State) : setPc s s.pc = s := rfl

/-- Settles O9: the state after a JP is `setPc`, and a PC that is the operand is its zero extension. -/
theorem jpSetsPc : Obligations.JpSetsPc := by
  intro s nnn
  refine ⟨⟨_, exec_jp nnn s, zextAddr_toNat nnn⟩, fun hpc => ?_⟩
  have hself : zextAddr nnn = s.pc := BitVec.eq_of_toNat_eq ((zextAddr_toNat nnn).trans hpc.symm)
  rw [exec_jp, hself, setPc_self]

end Sys2Proof.Machine
end

section
/-! The conditional skips against an immediate (rules R75, R76). -/

namespace Sys2Proof.Machine

theorem exec_seByte (x : Reg) (kk : Byte) (s : State) :
    exec (.seByte x kk) s = .next (skipIf (readV s x == kk) s) := rfl

theorem exec_sneByte (x : Reg) (kk : Byte) (s : State) :
    exec (.sneByte x kk) s = .next (skipIf (readV s x != kk) s) := rfl

/-- The PC of a skip as a number, for the condition as the spec words it (rules R13, R64). -/
theorem skipIf_pc_toNat {c : Bool} {p : Prop} [Decidable p] (hcp : c = true ↔ p) (s : State) :
    (skipIf c s).pc.toNat = (s.pc.toNat + if p then 4 else 2) % 65536 := by
  simp only [skipIf_pc, hcp]
  split
  · exact BitVec.toNat_add s.pc 4
  · exact BitVec.toNat_add s.pc 2

/-- Settles O16: both instructions are one `skipIf`, whose condition is the equality or its negation. -/
theorem immediateSkipsAdvancePc : Obligations.ImmediateSkipsAdvancePc := fun s x kk =>
  ⟨⟨_, exec_seByte x kk s, skipIf_pc_toNat beq_iff_eq s⟩, ⟨_, exec_sneByte x kk s, skipIf_pc_toNat bne_iff_ne s⟩⟩

end Sys2Proof.Machine
end

section
/-! The immediate load and add (rules R80, R81): one register write with no flag, then PC moves on. -/

namespace Sys2Proof.Machine

theorem exec_ldByte (x : Reg) (kk : Byte) (s : State) : exec (.ldByte x kk) s = .next (advance (writeV s x kk)) := rfl

theorem exec_addByte (x : Reg) (kk : Byte) (s : State) :
    exec (.addByte x kk) s = .next (advance (writeV s x (addResult (readV s x) kk))) := rfl

theorem readV_writeV_self (s : State) (r : Reg) (b : Byte) : readV (writeV s r b) r = b := by
  rw [readV_writeV, if_pos rfl]

theorem readV_writeV_of_ne (s : State) {r r' : Reg} (h : r' ≠ r) (b : Byte) :
    readV (writeV s r b) r' = readV s r' := by
  rw [readV_writeV, if_neg h]

/-- The effect every plain result has on PC and on VF: with `x = 15` VF holds the result instead. -/
theorem advance_writeV_pc_vf (s : State) (x : Reg) (b : Byte) :
    (advance (writeV s x b)).pc = s.pc + 2 ∧ (x ≠ 15 → readV (advance (writeV s x b)) 15 = readV s 15) :=
  ⟨rfl, fun hx => readV_writeV_of_ne s hx.symm b⟩

/-- Settles O18: both instructions write `V[x]` alone, the one with the immediate, the other with `addResult`. -/
theorem immediateLoadAndAddResults : Obligations.ImmediateLoadAndAddResults := by
  intro s x kk
  constructor
  · exact ⟨_, exec_ldByte x kk s, readV_writeV_self s x kk, advance_writeV_pc_vf s x kk⟩
  · have hsum : readV (advance (writeV s x (addResult (readV s x) kk))) x = addResult (readV s x) kk :=
      readV_writeV_self s x _
    exact ⟨_, exec_addByte x kk s, by rw [hsum, addResult_toNat], advance_writeV_pc_vf s x _⟩

end Sys2Proof.Machine
end

section
/-! The register moves and the bitwise logic (rules R85 to R88): one register write with no flag, then PC moves on. -/

namespace Sys2Proof.Machine

theorem exec_ldReg (x y : Reg) (s : State) : exec (.ldReg x y) s = .next (advance (writeV s x (readV s y))) := rfl

theorem exec_orReg (x y : Reg) (s : State) :
    exec (.orReg x y) s = .next (advance (writeV s x (readV s x ||| readV s y))) := rfl

theorem exec_andReg (x y : Reg) (s : State) :
    exec (.andReg x y) s = .next (advance (writeV s x (readV s x &&& readV s y))) := rfl

theorem exec_xorReg (x y : Reg) (s : State) :
    exec (.xorReg x y) s = .next (advance (writeV s x (readV s x ^^^ readV s y))) := rfl

/-- The effect every plain result has on its destination. -/
theorem readV_advance_writeV_self (s : State) (x : Reg) (b : Byte) : readV (advance (writeV s x b)) x = b := by
  rw [readV_advance, readV_writeV_self]

/-- Settles O21: each of the four is one plain result, which for the last three is a bitwise operation of the latched operands. -/
theorem moveAndLogicResults : Obligations.MoveAndLogicResults := by
  intro s x y
  have hpcvf (b : Byte) := advance_writeV_pc_vf s x b
  refine ⟨?ldReg, ?orReg, ?andReg, ?xorReg⟩
  case ldReg => exact ⟨_, exec_ldReg x y s, readV_advance_writeV_self s x _, hpcvf _⟩
  case orReg =>
    refine ⟨_, exec_orReg x y s, (hpcvf _).1, (hpcvf _).2, fun j _ => ?_⟩
    rw [readV_advance_writeV_self, BitVec.getLsbD_or]
  case andReg =>
    refine ⟨_, exec_andReg x y s, (hpcvf _).1, (hpcvf _).2, fun j _ => ?_⟩
    rw [readV_advance_writeV_self, BitVec.getLsbD_and]
  case xorReg =>
    refine ⟨_, exec_xorReg x y s, (hpcvf _).1, (hpcvf _).2, fun j _ => ?_⟩
    rw [readV_advance_writeV_self, BitVec.getLsbD_xor]

end Sys2Proof.Machine
end

section
/-! The register arithmetic with its flag (rules R89, R90, R92): VF takes the flag, `V[x]` the result, then PC moves on. -/

namespace Sys2Proof.Machine

theorem exec_addReg (x y : Reg) (s : State) :
    exec (.addReg x y) s = .next (advance (writeFlagThenResult s x (addCarry (readV s x) (readV s y))
      (addResult (readV s x) (readV s y)))) := rfl

theorem exec_sub (x y : Reg) (s : State) :
    exec (.sub x y) s = .next (advance (writeFlagThenResult s x (subNoBorrow (readV s x) (readV s y))
      (subResult (readV s x) (readV s y)))) := rfl

theorem exec_subn (x y : Reg) (s : State) :
    exec (.subn x y) s = .next (advance (writeFlagThenResult s x (subNoBorrow (readV s y) (readV s x))
      (subResult (readV s y) (readV s x)))) := rfl

theorem flagByte_addCarry (a b : Byte) :
    (flagByte (addCarry a b)).toNat = if a.toNat + b.toNat > 255 then 1 else 0 := by
  simp only [flagByte_toNat, addCarry, decide_eq_true_iff]

theorem flagByte_subNoBorrow (a b : Byte) :
    (flagByte (subNoBorrow a b)).toNat = if a.toNat ≥ b.toNat then 1 else 0 := by
  simp only [flagByte_toNat, subNoBorrow, decide_eq_true_iff]

/-- The destination holds the result, be it VF or not (rule R95). -/
theorem readV_advance_writeFlagThenResult_self (s : State) (x : Reg) (f : Bool) (b : Byte) :
    readV (advance (writeFlagThenResult s x f b)) x = b := by
  rw [readV_advance, readV_writeFlagThenResult, if_pos rfl]

/-- VF holds the flag where it is not the destination (rule R95). -/
theorem readV_advance_writeFlagThenResult_vf (s : State) {x : Reg} (hx : x ≠ 15) (f : Bool) (b : Byte) :
    readV (advance (writeFlagThenResult s x f b)) 15 = flagByte f := by
  rw [readV_advance, readV_writeFlagThenResult, if_neg hx.symm, if_pos rfl]

/-- Settles O22: the result is `addResult` and the flag `addCarry` of the latched operands. -/
theorem addSetsCarryAndSum : Obligations.AddSetsCarryAndSum := by
  intro s x y
  refine ⟨_, exec_addReg x y s, rfl, ?sum, fun hx => ?carry⟩
  case sum => rw [readV_advance_writeFlagThenResult_self, addResult_toNat]
  case carry => rw [readV_advance_writeFlagThenResult_vf s hx, flagByte_addCarry]

/-- What SUB and SUBN share: the difference of two bytes in `V[x]`, and whether it needs no borrow in VF (rules R90, R92, R95). -/
theorem advance_writeFlagThenResult_sub (s : State) (x : Reg) (a b : Byte) :
    let t := advance (writeFlagThenResult s x (subNoBorrow a b) (subResult a b))
    t.pc = s.pc + 2 ∧ ((readV t x).toNat : Int) = ((a.toNat : Int) - b.toNat) % 256 ∧
      (x ≠ 15 → (readV t 15).toNat = if a.toNat ≥ b.toNat then 1 else 0) := by
  refine ⟨rfl, ?difference, fun hx => ?noBorrow⟩
  case difference => rw [readV_advance_writeFlagThenResult_self, subResult_toNat]
  case noBorrow => rw [readV_advance_writeFlagThenResult_vf s hx, flagByte_subNoBorrow]

/-- Settles O23: SUBN is SUB with the operands exchanged. -/
theorem subAndSubnSetNoBorrowAndDifference : Obligations.SubAndSubnSetNoBorrowAndDifference := fun s x y =>
  ⟨⟨_, exec_sub x y s, advance_writeFlagThenResult_sub s x (readV s x) (readV s y)⟩,
    ⟨_, exec_subn x y s, advance_writeFlagThenResult_sub s x (readV s y) (readV s x)⟩⟩

end Sys2Proof.Machine
end

section
/-! The framebuffer handshake (rules R114, R115): the two instructions that draw set Dirty, `consume_framebuffer` clears it. -/

namespace Sys2Proof.Machine

theorem transact_framebufferChanged (s : State) : transact .framebufferChanged s = (s, .changed s.dirty) := rfl

theorem transact_consumeFramebuffer (s : State) : transact .consumeFramebuffer s = (clearDirty s, .grid s.fb) := rfl

theorem exec_cls (s : State) : exec .cls s = .next (advance (showPixels s 0)) := rfl

theorem exec_drw (x y : Reg) (n : Height) (s : State) : exec (.drw x y n) s = execDrw x y n s := rfl

/-- The state CLS leaves has just shown its pixels. -/
theorem exec_cls_dirty {s t : State} (h : exec .cls s = .next t) : t.dirty = true := by
  rw [exec_cls] at h
  cases h
  rw [advance_dirty, showPixels_dirty]

/-- A DRW that completes had its rows inside memory, and then shows its pixels whether or not one of them changed. -/
theorem exec_drw_dirty {s t : State} {x y : Reg} {n : Height} (h : exec (.drw x y n) s = .next t) : t.dirty = true := by
  rw [exec_drw] at h
  rw [execDrw_inside (execDrw_next h)] at h
  cases h
  rw [advance_dirty, showPixels_dirty]

/-- Settles O52: `framebuffer_changed` returns Dirty, which each drawing instruction sets and `clearDirty` clears. -/
theorem framebufferChangedFollowsTheHandshake : Obligations.FramebufferChangedFollowsTheHandshake := by
  intro s
  refine ⟨transact_framebufferChanged s, ?afterDrawing, ?consumed, ?afterConsuming⟩
  case afterDrawing =>
    rintro i t (rfl | ⟨x, y, n, rfl⟩) h
    · rw [transact_framebufferChanged, exec_cls_dirty h]
    · rw [transact_framebufferChanged, exec_drw_dirty h]
  case consumed => rw [transact_consumeFramebuffer]
  case afterConsuming => rw [transact_consumeFramebuffer, transact_framebufferChanged, clearDirty_dirty]

end Sys2Proof.Machine
end

section
/-! The faults of EXECUTE (rules R127, R128, R129): three instructions make a check before they write, each with a fault of its
own, and nothing else stops. -/

namespace Sys2Proof.Machine

/-- The checks of EXECUTE: the instruction and the state that fail one, and the fault it raises. -/
inductive CheckFails : Instr → State → Fault → Prop where
  | ret {s : State} (empty : s.sp.val = 0) : CheckFails .ret s .stackUnderflow
  | call {s : State} {nnn : Addr} (full : s.sp.val = 16) : CheckFails (.call nnn) s .stackOverflow
  | drw {s : State} {x y : Reg} {n : Height} (outside : s.i.toNat % 4096 + n.val > 4096) :
      CheckFails (.drw x y n) s .addressOutOfRange

theorem exec_of_checkFails {i : Instr} {s : State} {k : Fault} (h : CheckFails i s k) : exec i s = .fault k := by
  cases h with
  | ret empty => exact execRet_empty empty
  | call full => exact execCall_full full _
  | drw outside => exact execDrw_outside outside _ _

theorem checkFails_of_exec {i : Instr} {s : State} {k : Fault} (h : exec i s = .fault k) : CheckFails i s k := by
  cases i with
  | ret =>
    rcases sp_empty_or_slot s with empty | ⟨slot, hslot⟩
    · cases (exec_of_checkFails (.ret empty)).symm.trans h
      exact .ret empty
    · obtain ⟨t, ht, -⟩ := execRet_slot s slot hslot
      cases ht.symm.trans h
  | call nnn =>
    rcases sp_full_or_slot s with full | ⟨slot, hslot⟩
    · cases (exec_of_checkFails (.call full)).symm.trans h
      exact .call full
    · obtain ⟨t, ht, -⟩ := execCall_slot s nnn slot hslot
      cases ht.symm.trans h
  | drw x y n =>
    rcases Nat.lt_or_ge 4096 (s.i.toNat % 4096 + n.val) with outside | inside
    · cases (exec_of_checkFails (.drw outside)).symm.trans h
      exact .drw outside
    · cases (execDrw_inside inside x y).symm.trans h
  | _ => cases h

/-- EXECUTE stops with a fault exactly when the instruction's own check fails (rule R63). -/
theorem exec_eq_fault_iff {i : Instr} {s : State} {k : Fault} : exec i s = .fault k ↔ CheckFails i s k :=
  ⟨checkFails_of_exec, exec_of_checkFails⟩

/-- Settles O11: the one check of CALL that can fail is that of a full stack. -/
theorem callOverflowsExactlyWhenFull : Obligations.CallOverflowsExactlyWhenFull := fun s nnn => by
  refine ⟨exec_eq_fault_iff.trans ⟨fun (.call full) => full, .call⟩, fun full => ?_⟩
  rw [exec_of_checkFails (.call full), settle]

/-- Settles O13: the one check of RET that can fail is that of an empty stack. -/
theorem retUnderflowsExactlyWhenEmpty : Obligations.RetUnderflowsExactlyWhenEmpty := fun s => by
  refine ⟨exec_eq_fault_iff.trans ⟨fun (.ret empty) => empty, .ret⟩, fun empty => ?_⟩
  rw [exec_of_checkFails (.ret empty), settle]

end Sys2Proof.Machine
end

section
/-! The words the decoder rejects (rules R55, R56, R59, R60). -/

namespace Sys2Proof

/-- The illegal words of rule R126, for a word as a number. -/
def IllegalWord (w : Nat) : Prop :=
  (w / 4096 = 0x0 ∧ w ≠ 0x00E0 ∧ w ≠ 0x00EE) ∨
    (w / 4096 = 0x8 ∧ w % 16 ∈ [0x8, 0x9, 0xA, 0xB, 0xC, 0xD, 0xF]) ∨ w / 4096 = 0xE ∨ w / 4096 = 0xF

theorem decodeFamilyZero_rejects_iff (w : Word) :
    (∃ e, decodeFamilyZero w = .error e) ↔ w.toNat ≠ 0x00E0 ∧ w.toNat ≠ 0x00EE := by
  have hcls : w = 0x00E0 ↔ w.toNat = 0x00E0 := BitVec.toNat_inj.symm
  have hret : w = 0x00EE ↔ w.toNat = 0x00EE := BitVec.toNat_inj.symm
  simp only [decodeFamilyZero, hcls, hret]
  split_ifs <;> simp [*]

/-- The sixteen low nibbles one by one (rule R56). -/
theorem decodeFamilyEight_rejects_iff (w : Word) :
    (∃ e, decodeFamilyEight w = .error e) ↔ w.toNat % 16 ∈ [0x8, 0x9, 0xA, 0xB, 0xC, 0xD, 0xF] := by
  have hlt := (nField w).isLt
  rw [← nField_val, decodeFamilyEight]
  generalize (nField w).val = n at hlt
  interval_cases n <;> simp

/-- Each of the sixteen families decodes every word, none, or, in families 0x0 and 0x8, some. -/
theorem decodeWord_rejects_iff (w : Word) : (∃ e, decodeWord w = .error e) ↔ IllegalWord w.toNat := by
  have hlt := (opField w).isLt
  rw [IllegalWord, ← opField_toNat, decodeWord]
  generalize (opField w).toNat = op at hlt
  interval_cases op <;> simp [decodeFamilyZero_rejects_iff, decodeFamilyEight_rejects_iff]

end Sys2Proof
end

section
/-! The status of a `step` and of a `load_program` (rules R126, R130). -/

namespace Sys2Proof.Machine

theorem fetchWord_toNat (s : State) (pc : Word) :
    (fetchWord s pc).toNat = 256 * (memRead s pc.toNat).toNat + (memRead s (pc.toNat + 1)).toNat := by
  rw [fetchWord, wordOfBytes, toNat_append_eq]
  omega

/-- A step faults in DECODE, on a rejected word, or in EXECUTE, on a check that fails (rules R62, R63). -/
theorem step_eq_fault_iff {s : State} {k : Fault} :
    step s = .fault k ↔ (k = .decodeError ∧ ∃ e, decodeWord (fetchWord s s.pc) = .error e) ∨
      ∃ i, decodeWord (fetchWord s s.pc) = .ok i ∧ CheckFails i s k := by
  cases hw : decodeWord (fetchWord s s.pc) with
  | ok i => simp [step_of_fetchDecode_ok (fetchDecode_of_decodes hw), exec_eq_fault_iff]
  | error e => simp [step_of_fetchDecode_error (fetchDecode_of_rejects hw), eq_comm]

/-- No check of EXECUTE raises DecodeError. -/
theorem step_eq_decodeError_iff (s : State) :
    step s = .fault .decodeError ↔ IllegalWord (fetchWord s s.pc).toNat := by
  rw [step_eq_fault_iff, decodeWord_rejects_iff]
  exact ⟨fun | .inl ⟨_, illegal⟩ => illegal | .inr ⟨_, _, fails⟩ => (nomatch fails), fun illegal => .inl ⟨rfl, illegal⟩⟩

/-- Neither DECODE nor a check of EXECUTE raises OutOfBounds. -/
theorem step_ne_outOfBounds (s : State) : step s ≠ .fault .outOfBounds := by
  rw [ne_eq, step_eq_fault_iff]
  exact fun | .inr ⟨_, _, fails⟩ => nomatch fails

/-- The status of a transaction that can fail is an error exactly when it raised that error. -/
theorem settle_status_error_iff {s : State} {o : Host.Outcome State Fault Refusal} {k : Fault} :
    (settle s o).2 = .status (.error k) ↔ o = .fault k := by
  cases o <;> simp [settle]

theorem transact_step (s : State) : transact .step s = settle s (step s) := rfl

/-- Settles O7: the obligation's number is that of the word `fetchWord` reads at PC. -/
theorem illegalWordsAreDecodeErrors : Obligations.IllegalWordsAreDecodeErrors := by
  intro s
  rw [← fetchWord_toNat]
  refine ⟨(step_eq_decodeError_iff s).symm, fun illegal => ?_⟩
  rw [transact_step, (step_eq_decodeError_iff s).mpr illegal, settle]

/-- Settles O51, by the two ways a `load_program` can end. -/
theorem loadProgramOutOfBoundsExactlyWhenTooLong : Obligations.LoadProgramOutOfBoundsExactlyWhenTooLong := by
  intro s bytes
  refine ⟨?status, fun tooLong => ?memory, mt settle_status_error_iff.mp (step_ne_outOfBounds s)⟩
  case status =>
    by_cases hfit : bytes.length + 0x200 ≤ 4096
    · simp [transact_loadProgram_fits hfit, hfit]
    · simp [transact_loadProgram_tooLong (Nat.lt_of_not_le hfit), Nat.lt_of_not_le hfit]
  case memory => rw [transact_loadProgram_tooLong tooLong]

end Sys2Proof.Machine
end

section
/-! The decoder against the encoder and the opcode map (rules R51 to R59). -/

namespace Sys2Proof

/-! ### Decoding an encoded word -/

/-- The decoder undoes the encoder: the fields of the word each format builds are the operands it was built from. -/
theorem decodeWord_encode (i : Instr) : decodeWord (encode i) = .ok i := by
  cases i with
  | cls | ret => decide
  | ldReg | orReg | andReg | xorReg | addReg | sub | shr | subn | shl =>
    simp [encode, decodeWord, decodeFamilyEight]
  | _ => simp [encode, decodeWord]

theorem decode_encodeBytes_append (i : Instr) (rest : List Byte) : decode (encodeBytes i ++ rest) = .ok (i, rest) := by
  rw [encodeBytes, decode_bytesOfWord, decodeWord_encode]
  rfl

/-- Settles O2: the words by `decodeWord_encode`, the byte strings by `decode_bytesOfWord`. -/
theorem decodeOfEncodeIsTheInstruction : Obligations.DecodeOfEncodeIsTheInstruction := fun i rest =>
  ⟨decodeWord_encode i, decode_encodeBytes_append i rest⟩

/-- Settles O1, word by word. -/
theorem wordsOfTheSpecDecode : Obligations.WordsOfTheSpecDecode := by
  unfold Obligations.WordsOfTheSpecDecode
  decide

/-! ### The rows a word selects -/

theorem and_top_toNat (w : Word) : (w &&& 0xF000#16).toNat = 4096 * (opField w).toNat := by
  have htop : w &&& 0xF000#16 = opField w ++ 0#12 :=
    (congrArg (· &&& 0xF000#16) (word_eq_formatA w)).trans (Laws.OwnRow.mask_top _ _)
  rw [htop, toNat_append_eq]
  simp [Nat.mul_comm]

theorem and_top_low_toNat (w : Word) : (w &&& 0xF00F#16).toNat = 4096 * (opField w).toNat + (nField w).val := by
  have hends : w &&& 0xF00F#16 = opField w ++ (0#8 ++ (BitVec.ofFin (nField w) : BitVec 4)) := by
    conv_lhs => rw [word_eq_formatXYN w, Laws.OwnRow.formatXYN_eq_append]
    exact Laws.OwnRow.mask_top_low _ _ _
  rw [hends, toNat_append_eq, toNat_append_eq]
  simp [Nat.mul_comm]

theorem selects_iff_toNat (m : String) (k f w : Word) :
    OpcodeRow.selects ⟨m, k, f⟩ w = true ↔ (w &&& k).toNat = f.toNat :=
  beq_iff_eq.trans BitVec.toNat_inj.symm

/-- A row of a whole family is selected by the top nibble. -/
@[simp] theorem selects_family (m : String) (f w : Word) :
    OpcodeRow.selects ⟨m, 0xF000#16, f⟩ w = true ↔ 4096 * (opField w).toNat = f.toNat := by
  rw [selects_iff_toNat, and_top_toNat]

/-- A row of family 0x8 is selected by the top and the low nibble. -/
@[simp] theorem selects_familyEight (m : String) (f w : Word) :
    OpcodeRow.selects ⟨m, 0xF00F#16, f⟩ w = true ↔
      (opField w).toNat = f.toNat / 4096 ∧ (nField w).val = f.toNat % 4096 := by
  have := (nField w).isLt
  rw [selects_iff_toNat, and_top_low_toNat]
  omega

/-- A row of family 0x0 is selected by one word. -/
@[simp] theorem selects_word (m : String) (f w : Word) :
    OpcodeRow.selects ⟨m, 0xFFFF#16, f⟩ w = true ↔ (opField w).toNat = f.toNat / 4096 ∧ w.toNat = f.toNat := by
  have hall : w &&& 0xFFFF#16 = w := BitVec.and_allOnes
  have hop := opField_toNat w
  rw [selects_iff_toNat, hall]
  omega

/-- Family 0x0 has a row for each of its two words. -/
theorem rowsOf_mnemonics_familyZero {w : Word} (hfam : (opField w).toNat = 0) :
    (rowsOf w).map (·.mnemonic) = ((decodeFamilyZero w).toOption.map Instr.mnemonic).toList := by
  have hcls : w = 0x00E0 ↔ w.toNat = 0x00E0 := BitVec.toNat_inj.symm
  have hret : w = 0x00EE ↔ w.toNat = 0x00EE := BitVec.toNat_inj.symm
  simp only [rowsOf, opcodeRows, decodeFamilyZero, hcls, hret]
  split_ifs <;> simp [Except.toOption, Instr.mnemonic, *]

/-- Family 0x8 has a row for each of nine low nibbles. -/
theorem rowsOf_mnemonics_familyEight {w : Word} (hfam : (opField w).toNat = 8) :
    (rowsOf w).map (·.mnemonic) = ((decodeFamilyEight w).toOption.map Instr.mnemonic).toList := by
  have hlow := (nField w).isLt
  rw [rowsOf, opcodeRows, decodeFamilyEight]
  generalize hn : (nField w).val = n at hlow
  interval_cases n <;> simp [Except.toOption, Instr.mnemonic, hfam, hn]

/-- The other families have one row each, or none. -/
theorem rowsOf_mnemonics (w : Word) :
    (rowsOf w).map (·.mnemonic) = ((decodeWord w).toOption.map Instr.mnemonic).toList := by
  have hop := (opField w).isLt
  rw [decodeWord]
  generalize hfam : (opField w).toNat = op at hop
  rcases Nat.eq_zero_or_pos op with rfl | hpos
  · exact rowsOf_mnemonics_familyZero hfam
  rcases Nat.lt_trichotomy op 8 with hlt | rfl | hgt
  · interval_cases op <;> simp [rowsOf, opcodeRows, Except.toOption, Instr.mnemonic, hfam]
  · exact rowsOf_mnemonics_familyEight hfam
  · interval_cases op <;> simp [rowsOf, opcodeRows, Except.toOption, Instr.mnemonic, hfam]

/-- Settles O3: the rows a word selects are those of the instruction it decodes to, if any. -/
theorem everyWordSelectsItsRowOrNone : Obligations.EveryWordSelectsItsRowOrNone := by
  intro w
  have hrows := rowsOf_mnemonics w
  refine ⟨fun i hi => ?decoded, fun e he => ?rejected⟩
  case decoded =>
    rw [hrows, hi]
    rfl
  case rejected =>
    rw [he] at hrows
    exact List.map_eq_nil_iff.mp hrows

/-! ### Encoding a decoded word -/

theorem formatA_of_opField {w : Word} {op : BitVec 4} (h : (opField w).toNat = op.toNat) : formatA op (nnnField w) = w := by
  rw [← BitVec.eq_of_toNat_eq h, ← word_eq_formatA]

theorem formatXK_of_opField {w : Word} {op : BitVec 4} (h : (opField w).toNat = op.toNat) :
    formatXK op (xField w) (kkField w) = w := by
  rw [← BitVec.eq_of_toNat_eq h, ← word_eq_formatXK]

theorem formatXYN_of_opField {w : Word} {op : BitVec 4} (h : (opField w).toNat = op.toNat) {n : BitVec 4}
    (hn : (nField w).val = n.toNat) : formatXYN op (xField w) (yField w) n = w := by
  have hlow : n = BitVec.ofFin (nField w) := BitVec.eq_of_toNat_eq hn.symm
  rw [hlow, ← BitVec.eq_of_toNat_eq h, ← word_eq_formatXYN]

/-- The mask 0xFFF0 clears the low nibble. -/
theorem formatXYN_and_clearLow (op : BitVec 4) (x y : Reg) (n : BitVec 4) :
    formatXYN op x y n &&& 0xFFF0#16 = formatXYN op x y 0#4 := by
  have hm : (0xFFF0#16) = 0xFFF#12 ++ 0#4 := by decide
  have htop (a : BitVec 12) : a &&& 0xFFF#12 = a := BitVec.and_allOnes
  rw [formatXYN, formatXYN, hm, BitVec.and_append, htop, BitVec.and_zero]

/-- The register skips are encoded with the ignored low nibble as 0 (rule R57). -/
theorem formatXYN_zero_of_opField {w : Word} {op : BitVec 4} (h : (opField w).toNat = op.toNat) :
    formatXYN op (xField w) (yField w) 0#4 = w &&& 0xFFF0#16 := by
  conv_rhs => rw [word_eq_formatXYN w, BitVec.eq_of_toNat_eq h]
  exact (formatXYN_and_clearLow _ _ _ _).symm

theorem encode_of_decodeFamilyZero {w : Word} {i : Instr} (h : decodeFamilyZero w = .ok i) : encode i = w := by
  unfold decodeFamilyZero at h
  split_ifs at h with hcls hret
  · cases h
    exact hcls.symm
  · cases h
    exact hret.symm

theorem encode_of_decodeFamilyEight {w : Word} {i : Instr} (hfam : (opField w).toNat = 8)
    (h : decodeFamilyEight w = .ok i) : encode i = w := by
  unfold decodeFamilyEight at h
  split at h <;> cases h <;> exact formatXYN_of_opField hfam (by assumption)

/-- Settles O4, family by family: the fields of the word are the operands the encoder writes back. -/
theorem decodedWordIsItsEncoding : Obligations.DecodedWordIsItsEncoding := by
  intro w i h
  rw [← opField_toNat]
  unfold decodeWord at h
  split at h
  case h_15 | h_16 => cases h
  case h_6 hfam | h_10 hfam =>
    cases h
    rw [if_pos (by omega)]
    exact formatXYN_zero_of_opField hfam
  all_goals rw [if_neg (by omega)]
  case h_1 => exact encode_of_decodeFamilyZero h
  case h_9 hfam => exact encode_of_decodeFamilyEight hfam h
  case h_2 hfam | h_3 hfam | h_11 hfam | h_12 hfam =>
    cases h
    exact formatA_of_opField hfam
  case h_4 hfam | h_5 hfam | h_7 hfam | h_8 hfam | h_13 hfam =>
    cases h
    exact formatXK_of_opField hfam
  case h_14 hfam =>
    cases h
    exact formatXYN_of_opField hfam rfl

/-! ### The ignored low nibble -/

theorem decodeWord_familyFive {w : Word} (h : w.toNat / 4096 = 5) : decodeWord w = .ok (.seReg (xField w) (yField w)) := by
  simp only [decodeWord, opField_toNat, h]

theorem decodeWord_familyNine {w : Word} (h : w.toNat / 4096 = 9) : decodeWord w = .ok (.sneReg (xField w) (yField w)) := by
  simp only [decodeWord, opField_toNat, h]

/-- Settles O5: these families decode to their register fields, which lie above the low nibble. -/
theorem lowNibbleOfRegisterSkipsIgnored : Obligations.LowNibbleOfRegisterSkipsIgnored := by
  intro w w' hfam hlow
  have hx : xField w' = xField w := Fin.ext (by rw [xField_val, xField_val]; omega)
  have hy : yField w' = yField w := Fin.ext (by rw [yField_val, yField_val]; omega)
  have htop : w'.toNat / 4096 = w.toNat / 4096 := by omega
  rcases hfam with h | h
  · rw [decodeWord_familyFive h, decodeWord_familyFive (htop.trans h), hx, hy]
  · rw [decodeWord_familyNine h, decodeWord_familyNine (htop.trans h), hx, hy]

end Sys2Proof
end

section
/-! Frames: the pieces of state an instruction may change, said once for every instruction (rules R64, R68). -/

namespace Sys2Proof.Machine

/-! ### The effect of an instruction as one named update -/

theorem exec_jpV0 (nnn : Addr) (s : State) : exec (.jpV0 nnn) s = .next (setPc s (jumpOffset nnn (readV s v0))) := rfl

theorem exec_seReg (x y : Reg) (s : State) :
    exec (.seReg x y) s = .next (skipIf (readV s x == readV s y) s) := rfl

theorem exec_sneReg (x y : Reg) (s : State) :
    exec (.sneReg x y) s = .next (skipIf (readV s x != readV s y) s) := rfl

theorem exec_ldI (nnn : Addr) (s : State) : exec (.ldI nnn) s = .next (advance (writeI s (zextAddr nnn))) := rfl

theorem exec_rnd (x : Reg) (kk : Byte) (s : State) : exec (.rnd x kk) s = .next (rndWith (randIn s) x kk s) := rfl

theorem exec_shr (x y : Reg) (s : State) :
    exec (.shr x y) s = .next (advance (writeFlagThenResult s x (shrBit (readV s x)) (shrResult (readV s x)))) := rfl

theorem exec_shl (x y : Reg) (s : State) :
    exec (.shl x y) s = .next (advance (writeFlagThenResult s x (shlBit (readV s x)) (shlResult (readV s x)))) := rfl

/-! ### Footprints -/

/-- What an instruction may change beside PC: the registers it may write, and whether it reaches I, the stack, the display
and the model's draw count. No instruction reaches memory (`exec_mem`). -/
structure Footprint where
  regs : List Reg := []
  index : Bool := false
  stack : Bool := false
  display : Bool := false
  draws : Bool := false

/-- The footprint of each instruction, by the state its rule writes (rules R70 to R101). -/
def footprint : Instr → Footprint
  | .jp _ | .jpV0 _ | .seByte _ _ | .sneByte _ _ | .seReg _ _ | .sneReg _ _ => {}
  | .ret | .call _ => { stack := true }
  | .ldByte x _ | .addByte x _ | .ldReg x _ | .orReg x _ | .andReg x _ | .xorReg x _ => { regs := [x] }
  | .rnd x _ => { regs := [x], draws := true }
  | .addReg x _ | .sub x _ | .shr x _ | .subn x _ | .shl x _ => { regs := [x, vf] }
  | .ldI _ => { index := true }
  | .cls => { display := true }
  | .drw _ _ _ => { regs := [vf], display := true }

/-- Outside the footprint `t` is as `s`, PC aside. -/
structure WithinFootprint (f : Footprint) (s t : State) : Prop where
  regs : VSameBut f.regs s t
  index : f.index = false → t.i = s.i
  stack : f.stack = false → StackSame s t
  display : f.display = false → DisplaySame s t
  draws : f.draws = false → t.draws = s.draws

theorem stackSame_of_eq {s t : State} (hsp : t.sp = s.sp) (hstack : t.stack = s.stack) : StackSame s t :=
  ⟨hsp, fun k => by rw [hstack]⟩

theorem displaySame_of_eq {s t : State} (hfb : t.fb = s.fb) (hdirty : t.dirty = s.dirty) : DisplaySame s t :=
  ⟨fun row _ col _ => by rw [hfb], hdirty⟩

/-- A state that differs in PC and in registers of the footprint alone is within it. -/
theorem withinFootprint_of_regs {f : Footprint} {s t : State} (hv : VSameBut f.regs s t) (hi : t.i = s.i)
    (hsp : t.sp = s.sp) (hstack : t.stack = s.stack) (hfb : t.fb = s.fb) (hdirty : t.dirty = s.dirty)
    (hdraws : t.draws = s.draws) : WithinFootprint f s t :=
  ⟨hv, fun _ => hi, fun _ => stackSame_of_eq hsp hstack, fun _ => displaySame_of_eq hfb hdirty, fun _ => hdraws⟩

theorem advance_writeV_vSameBut (s : State) (x : Reg) (b : Byte) : VSameBut [x] s (advance (writeV s x b)) :=
  fun _ hr => readV_writeV_of_ne s (List.ne_of_not_mem_cons hr) b

theorem advance_writeFlagThenResult_vSameBut (s : State) (x : Reg) (f : Bool) (b : Byte) :
    VSameBut [x, vf] s (advance (writeFlagThenResult s x f b)) := by
  intro r hr
  obtain ⟨hx, hvf⟩ := List.ne_and_not_mem_of_not_mem_cons hr
  rw [readV_advance, readV_writeFlagThenResult, if_neg hx, if_neg (List.ne_of_not_mem_cons hvf)]

/-- An instruction that completes changes nothing outside its footprint but PC. -/
theorem exec_withinFootprint {i : Instr} {s t : State} (h : exec i s = .next t) : WithinFootprint (footprint i) s t := by
  cases i with
  | jp | jpV0 =>
    cases h
    exact withinFootprint_of_regs (fun _ _ => rfl) rfl rfl rfl rfl rfl rfl
  | seByte | sneByte | seReg | sneReg =>
    cases h
    exact withinFootprint_of_regs (fun r _ => readV_skipIf _ s r) (skipIf_i _ s) (skipIf_sp _ s) (skipIf_stack _ s)
      (skipIf_fb _ s) (skipIf_dirty _ s) (skipIf_draws _ s)
  | ldByte x | addByte x | ldReg x | orReg x | andReg x | xorReg x =>
    cases h
    exact withinFootprint_of_regs (advance_writeV_vSameBut s x _) rfl rfl rfl rfl rfl rfl
  | addReg x | sub x | shr x | subn x | shl x =>
    cases h
    exact withinFootprint_of_regs (advance_writeFlagThenResult_vSameBut s x _ _) rfl rfl rfl rfl rfl rfl
  | rnd x =>
    cases h
    exact ⟨advance_writeV_vSameBut s x _, fun _ => rfl, fun _ => stackSame_of_eq rfl rfl,
      fun _ => displaySame_of_eq rfl rfl, nofun⟩
  | ldI =>
    cases h
    exact ⟨fun _ _ => rfl, nofun, fun _ => stackSame_of_eq rfl rfl, fun _ => displaySame_of_eq rfl rfl, fun _ => rfl⟩
  | cls =>
    cases h
    exact ⟨fun _ _ => rfl, fun _ => rfl, fun _ => stackSame_of_eq rfl rfl, nofun, fun _ => rfl⟩
  | drw x y n =>
    cases (execDrw_inside (execDrw_next h) x y).symm.trans h
    exact ⟨advance_writeV_vSameBut s vf _, fun _ => rfl, fun _ => stackSame_of_eq rfl rfl, nofun, fun _ => rfl⟩
  | ret =>
    obtain ⟨k, hk⟩ := execRet_next h
    obtain ⟨u, hu, -, -, -, hv, hi, -, hfb, hdirty, hdraws⟩ := execRet_slot s k hk
    cases hu.symm.trans h
    exact ⟨fun r _ => readV_congr hv r, fun _ => hi, nofun, fun _ => displaySame_of_eq hfb hdirty, fun _ => hdraws⟩
  | call nnn =>
    obtain ⟨k, hk⟩ := execCall_next h
    obtain ⟨u, hu, -, -, -, hv, hi, -, hfb, hdirty, hdraws⟩ := execCall_slot s nnn k hk
    cases hu.symm.trans h
    exact ⟨fun r _ => readV_congr hv r, fun _ => hi, nofun, fun _ => displaySame_of_eq hfb hdirty, fun _ => hdraws⟩

theorem exec_memorySame {i : Instr} {s t : State} (h : exec i s = .next t) : MemorySame s t :=
  memRead_congr (exec_mem h)

/-! ### The frames -/

/-- Settles O31: the footprint of each of these instructions is its destination, and for RND the draw count. -/
theorem plainResultFrame : Obligations.PlainResultFrame := by
  intro x y kk i s t hi h
  have hf : (footprint i).regs = [x] ∧ (footprint i).index = false ∧ (footprint i).stack = false ∧
      (footprint i).display = false ∧ (i ≠ .rnd x kk → (footprint i).draws = false) := by
    fin_cases hi <;> simp [footprint]
  obtain ⟨hregs, hindex, hstack, hdisplay, hdraws⟩ := hf
  have hw := exec_withinFootprint h
  exact ⟨hregs ▸ hw.regs, hw.index hindex, hw.stack hstack, exec_memorySame h, hw.display hdisplay,
    fun hne => hw.draws (hdraws hne)⟩

/-- Settles O32: the footprint of each of these instructions is its destination and VF. -/
theorem flagResultFrame : Obligations.FlagResultFrame := by
  intro x y i s t hi h
  have hf : footprint i = { regs := [x, vf] } := by fin_cases hi <;> rfl
  have hw := exec_withinFootprint h
  rw [hf] at hw
  exact ⟨hw.regs, hw.index rfl, hw.stack rfl, exec_memorySame h, hw.display rfl, hw.draws rfl⟩

/-- Settles O33: the footprint of each of these instructions is empty. -/
theorem jumpAndSkipFrame : Obligations.JumpAndSkipFrame := by
  intro nnn x y kk i s t hi h
  have hf : footprint i = {} := by fin_cases hi <;> rfl
  have hw := exec_withinFootprint h
  rw [hf] at hw
  exact ⟨hw.regs, hw.index rfl, hw.stack rfl, exec_memorySame h, hw.display rfl, hw.draws rfl⟩

/-- RET keeps every slot, and CALL every slot but the one SP names (rules R15, R16). -/
theorem exec_stack_slot {i : Instr} {s t : State} (hi : i = .ret ∨ ∃ nnn, i = .call nnn) (h : exec i s = .next t)
    {k : Fin 16} (hk : i = .ret ∨ k.val ≠ s.sp.val) : t.stack[k] = s.stack[k] := by
  rcases hi with rfl | ⟨nnn, rfl⟩
  · obtain ⟨j, hj⟩ := execRet_next h
    obtain ⟨u, hu, -, -, hstack, -⟩ := execRet_slot s j hj
    cases hu.symm.trans h
    rw [hstack]
  · obtain ⟨j, hj⟩ := execCall_next h
    obtain ⟨u, hu, -, -, hstack, -⟩ := execCall_slot s nnn j hj
    cases hu.symm.trans h
    have hne : k ≠ j := fun e => (hk.resolve_left nofun) (e ▸ hj.symm)
    rw [hstack, if_neg hne]

/-- Settles O34: the footprint of both is the stack, of which `exec_stack_slot` says the rest. -/
theorem callAndRetFrame : Obligations.CallAndRetFrame := by
  intro nnn i s t hi h
  have hcall : i = .ret ∨ ∃ nnn, i = .call nnn := by fin_cases hi <;> simp
  have hf : footprint i = { stack := true } := by fin_cases hi <;> rfl
  have hw := exec_withinFootprint h
  rw [hf] at hw
  exact ⟨hw.regs, hw.index rfl, exec_memorySame h, hw.display rfl, hw.draws rfl, fun _ hk => exec_stack_slot hcall h hk⟩

/-- Settles O35: the footprint of LD I is I. -/
theorem ldIFrame : Obligations.LdIFrame := fun _ _ _ h =>
  have hw := exec_withinFootprint h
  ⟨hw.regs, hw.stack rfl, exec_memorySame h, hw.display rfl, hw.draws rfl⟩

/-- Settles O36: beyond the display the footprint of CLS is empty and that of DRW is VF. -/
theorem displayFrame : Obligations.DisplayFrame := by
  intro x y n i s t hi h
  have hw := exec_withinFootprint h
  have hf : (footprint i).regs ⊆ [15] ∧ (i = .cls → (footprint i).regs = []) ∧ (footprint i).index = false ∧
      (footprint i).stack = false ∧ (footprint i).draws = false := by
    fin_cases hi <;> simp [footprint]
  obtain ⟨hregs, hcls, hindex, hstack, hdraws⟩ := hf
  refine ⟨fun r hr => hw.regs r (mt (@hregs r) hr), fun hi => hw.regs 15 ?_, hw.index hindex, hw.stack hstack,
    exec_memorySame h, hw.draws hdraws⟩
  rw [hcls hi]
  exact List.not_mem_nil

theorem footprint_display {i : Instr} (h : (footprint i).display ≠ false) : i = .cls ∨ ∃ x y n, i = .drw x y n := by
  cases i <;> simp [footprint] at h ⊢

theorem footprint_stack {i : Instr} (h : (footprint i).stack ≠ false) : i = .ret ∨ ∃ nnn, i = .call nnn := by
  cases i <;> simp [footprint] at h ⊢

/-- Settles O39: what changed lay in the footprint. -/
theorem onlyDisplayAndStackInstructionsReachBeyondRegisters :
    Obligations.OnlyDisplayAndStackInstructionsReachBeyondRegisters := fun _ _ _ h =>
  have hw := exec_withinFootprint h
  ⟨exec_memorySame h, fun hne => footprint_display (mt hw.display hne), fun hne => footprint_stack (mt hw.stack hne)⟩

end Sys2Proof.Machine
end

section
/-! The instructions that complete, and what each leaves in PC, VF and its results (rules R63 to R104). -/

namespace Sys2Proof.Machine

/-! ### Completion -/

/-- No arm of EXECUTE refuses an instruction. -/
theorem exec_ne_refused (i : Instr) (s : State) (r : Refusal) : exec i s ≠ .refused r := by
  intro h
  cases i with
  | ret =>
    rcases sp_empty_or_slot s with empty | ⟨k, hk⟩
    · cases (execRet_empty empty).symm.trans h
    · obtain ⟨t, ht, -⟩ := execRet_slot s k hk
      cases ht.symm.trans h
  | call nnn =>
    rcases sp_full_or_slot s with full | ⟨k, hk⟩
    · cases (execCall_full full nnn).symm.trans h
    · obtain ⟨t, ht, -⟩ := execCall_slot s nnn k hk
      cases ht.symm.trans h
  | drw x y n =>
    rcases Nat.lt_or_ge 4096 (s.i.toNat % 4096 + n.val) with outside | inside
    · cases (execDrw_outside outside x y).symm.trans h
    · cases (execDrw_inside inside x y).symm.trans h
  | _ => cases h

/-- An instruction whose check does not fail completes (rule R63). -/
theorem exec_completes {i : Instr} {s : State} (h : ∀ k, ¬ CheckFails i s k) : ∃ t, exec i s = .next t := by
  cases he : exec i s with
  | next t => exact ⟨t, rfl⟩
  | fault k => exact absurd (checkFails_of_exec he) (h k)
  | refused r => exact absurd he (exec_ne_refused i s r)

/-- Settles O38: an instruction whose one check passes completes, and twenty have no check. -/
theorem everyInstructionCompletesUnlessItsCheckFails : Obligations.EveryInstructionCompletesUnlessItsCheckFails := by
  intro i s
  cases i with
  | call nnn =>
    show if s.sp.val = 16 then _ else _
    split
    next full => exact exec_of_checkFails (.call full)
    next free => exact exec_completes fun _ (.call full) => free full
  | ret =>
    show if s.sp.val = 0 then _ else _
    split
    next empty => exact exec_of_checkFails (.ret empty)
    next occupied => exact exec_completes fun _ (.ret empty) => occupied empty
  | drw x y n =>
    show if s.i.toNat % 4096 + n.val > 4096 then _ else _
    split
    next outside => exact exec_of_checkFails (.drw outside)
    next inside => exact exec_completes fun _ (.drw outside) => inside outside
  | _ => exact ⟨_, rfl⟩

/-- Settles O29: the one check of DRW that can fail is that of its extent. -/
theorem drwFaultsExactlyBeyondMemory : Obligations.DrwFaultsExactlyBeyondMemory := fun s x y n => by
  refine ⟨exec_eq_fault_iff.trans ⟨fun (.drw outside) => outside, .drw⟩, fun outside => ?_⟩
  rw [exec_of_checkFails (.drw outside), settle]

/-! ### PC -/

/-- Settles O15: the jump offset is the unmasked sum. -/
theorem jpV0SetsPcToSum : Obligations.JpV0SetsPcToSum := fun s nnn =>
  ⟨_, exec_jpV0 nnn s, jumpOffset_toNat nnn (readV s 0)⟩

/-- Settles O10, by the slot CALL fills. -/
theorem callPushesReturnAddress : Obligations.CallPushesReturnAddress := by
  intro s nnn k hk
  obtain ⟨t, ht, hsp, hpc, hstack, -⟩ := execCall_slot s nnn k hk
  refine ⟨t, ht, ?slot, hsp, ?pc, fun j hj => ?others⟩
  case slot => rw [hstack, if_pos rfl]
  case pc => rw [hpc, zextAddr_toNat]
  case others => rw [hstack, if_neg hj]

/-- Settles O12, by the slot RET pops. -/
theorem retPopsReturnAddress : Obligations.RetPopsReturnAddress := by
  intro s k hk
  obtain ⟨t, ht, hsp, hpc, hstack, -⟩ := execRet_slot s k hk
  exact ⟨t, ht, hsp, hpc, fun j => by rw [hstack]⟩

/-- Settles O14: the slot RET pops is the one CALL filled. -/
theorem retAfterCallRestoresPc : Obligations.RetAfterCallRestoresPc := by
  intro s t u nnn hcall ⟨husp, hustack⟩
  obtain ⟨k, hk⟩ := execCall_next hcall
  obtain ⟨t', ht', hsp, -, hstack, -⟩ := execCall_slot s nnn k hk
  cases ht'.symm.trans hcall
  obtain ⟨u', hu', husp', hpc, -⟩ := execRet_slot u k (by rw [husp, hsp])
  refine ⟨u', hu', ?_, Fin.ext (husp'.trans hk.symm)⟩
  rw [hpc, hustack, hstack, if_pos rfl]

/-- The PC of a skip, for the condition as the spec words it (rules R13, R64). -/
theorem skipIf_pc_of_iff {c : Bool} {p : Prop} [Decidable p] (hcp : c = true ↔ p) (s : State) :
    (skipIf c s).pc = s.pc + if p then 4 else 2 := by
  simp only [skipIf_pc, hcp]
  split <;> rfl

theorem skipIf_bne_pc {α : Type} [DecidableEq α] (a b : α) (s : State) :
    (skipIf (a != b) s).pc = s.pc + if a = b then 2 else 4 := by
  rw [skipIf_pc_of_iff bne_iff_ne, ite_not]

/-- Settles O17: both instructions are one `skipIf`, whose condition is the equality or its negation. -/
theorem registerSkipsAdvancePc : Obligations.RegisterSkipsAdvancePc := by
  intro s x y
  refine ⟨⟨_, exec_seReg x y s, skipIf_pc_toNat beq_iff_eq s⟩, ⟨_, exec_sneReg x y s, skipIf_pc_toNat bne_iff_ne s⟩,
    ⟨_, exec_seReg x x s, ?same⟩, ⟨_, exec_sneReg x x s, ?differ⟩⟩
  case same => rw [skipIf_pc_of_iff beq_iff_eq, if_pos rfl]
  case differ => rw [skipIf_bne_pc, if_pos rfl]

/-- Settles O37: the operations that set PC aside, each instruction ends with `advance` or a skip. -/
theorem pcAfterEveryInstruction : Obligations.PcAfterEveryInstruction := by
  intro i s t h
  cases i with
  | jp nnn =>
    cases h
    exact zextAddr_toNat nnn
  | jpV0 nnn =>
    cases h
    exact jumpOffset_toNat nnn (readV s 0)
  | call nnn =>
    obtain ⟨k, hk⟩ := execCall_next h
    obtain ⟨u, hu, -, hpc, -⟩ := execCall_slot s nnn k hk
    cases hu.symm.trans h
    rw [hpc, zextAddr_toNat]
  | ret =>
    intro k hk
    obtain ⟨u, hu, -, hpc, -⟩ := execRet_slot s k hk
    cases hu.symm.trans h
    exact hpc
  | seByte | seReg =>
    cases h
    exact skipIf_pc_of_iff beq_iff_eq s
  | sneByte | sneReg =>
    cases h
    exact skipIf_bne_pc _ _ s
  | drw x y n =>
    cases (execDrw_inside (execDrw_next h) x y).symm.trans h
    rfl
  | _ =>
    cases h
    rfl

theorem add_ite_ne_self (w : Word) {a b : Word} (ha : a ≠ 0) (hb : b ≠ 0) (p : Prop) [Decidable p] :
    (w + if p then a else b) ≠ w :=
  add_ne_left.mpr (by split <;> assumption)

/-- Settles O57: RET and CALL move SP, a JP or JP V0 that stands still was at its target, and every other instruction moves
PC by 2 or 4. -/
theorem onlyJumpsToThemselvesStandStill : Obligations.OnlyJumpsToThemselvesStandStill := by
  intro i s
  constructor
  · intro h
    have hpc := pcAfterEveryInstruction i s s h
    cases i with
    | jp nnn => exact .inl ⟨nnn, rfl, hpc.symm⟩
    | jpV0 nnn => exact .inr ⟨nnn, rfl, hpc.symm⟩
    | ret =>
      obtain ⟨k, hk⟩ := execRet_next h
      obtain ⟨u, hu, hsp, -⟩ := execRet_slot s k hk
      cases hu.symm.trans h
      omega
    | call nnn =>
      obtain ⟨k, hk⟩ := execCall_next h
      obtain ⟨u, hu, hsp, -⟩ := execCall_slot s nnn k hk
      cases hu.symm.trans h
      omega
    | seByte | sneByte | seReg | sneReg => exact absurd hpc.symm (add_ite_ne_self s.pc (by decide) (by decide) _)
    | _ => exact absurd hpc.symm (add_ne_left.mpr (by decide))
  · rintro (⟨nnn, rfl, hpc⟩ | ⟨nnn, rfl, hpc⟩)
    · exact (jpSetsPc s nnn).2 hpc.symm
    · have hself : jumpOffset nnn (readV s v0) = s.pc := BitVec.eq_of_toNat_eq ((jumpOffset_toNat _ _).trans hpc)
      rw [exec_jpV0, hself, setPc_self]

/-! ### Results and VF -/

/-- Settles O19: I takes the zero-extended operand. -/
theorem ldILoadsIndex : Obligations.LdILoadsIndex := fun s nnn =>
  ⟨_, exec_ldI nnn s, zextAddr_toNat nnn, rfl⟩

theorem readV_rndWith_self (r : Byte) (x : Reg) (kk : Byte) (s : State) : readV (rndWith r x kk s) x = r &&& kk := by
  rw [rndWith, readV_advance, readV_nextDraw, readV_writeV_self]

/-- Settles O20: RND is `rndWith` at the free value, of which nothing is used. -/
theorem rndMasksTheInputByte : Obligations.RndMasksTheInputByte := by
  intro s x kk
  refine ⟨fun r => ⟨readV_rndWith_self r x kk s, rfl⟩, _, exec_rnd x kk s, rfl, ?_, rfl, rfl⟩
  rw [readV_rndWith_self, BitVec.and_assoc, BitVec.and_not_self]
  exact BitVec.and_zero

/-- Settles O24: the shifts are flag results of the latched `V[x]` alone. -/
theorem shiftsInPlaceAndShiftedOutBit : Obligations.ShiftsInPlaceAndShiftedOutBit := by
  intro s x y
  refine ⟨⟨_, exec_shr x y s, rfl, ?half, fun hx => ?bit0⟩, ⟨_, exec_shl x y s, rfl, ?double, fun hx => ?bit7⟩,
    fun y' => ⟨rfl, rfl⟩⟩
  case half => rw [readV_advance_writeFlagThenResult_self, shrResult_toNat]
  case bit0 => rw [readV_advance_writeFlagThenResult_vf s hx, flagByte_shrBit]
  case double => rw [readV_advance_writeFlagThenResult_self, shlResult_toNat]
  case bit7 => rw [readV_advance_writeFlagThenResult_vf s hx, flagByte_shlBit]

/-- Settles O25: doubling is adding to itself, in the result and in the flag. -/
theorem shlIsAddToItself : Obligations.ShlIsAddToItself := by
  intro s x y
  obtain ⟨hresult, hflag⟩ := shl_eq_add_self (readV s x)
  rw [exec_shl, exec_addReg, hresult, hflag]

theorem flagByte_toNat_le_one (f : Bool) : (flagByte f).toNat ≤ 1 := by
  cases f <;> decide

/-- VF where it is not the destination of a flag result (rule R11). -/
theorem advance_writeFlagThenResult_vf_le_one (s : State) {x : Reg} (hx : x ≠ 15) (f : Bool) (b : Byte) :
    (readV (advance (writeFlagThenResult s x f b)) 15).toNat ≤ 1 := by
  rw [readV_advance_writeFlagThenResult_vf s hx]
  exact flagByte_toNat_le_one f

/-- VF after a DRW is the collision flag, be it a coordinate or not (rule R104). -/
theorem execDrw_vf {s t : State} {x y : Reg} {n : Height} (h : execDrw x y n s = .next t) :
    readV t 15 = flagByte (blit (readV s x) (readV s y) (spriteRows s n) s.fb).hit := by
  cases (execDrw_inside (execDrw_next h) x y).symm.trans h
  exact readV_writeV_self s 15 _

/-- Settles O26: the six hold a flag in VF, and VF lies outside the footprint of the others unless it is their destination. -/
theorem onlySixInstructionsWriteVfAsFlag : Obligations.OnlySixInstructionsWriteVfAsFlag := by
  intro i s t h
  have hkept := (exec_withinFootprint h).regs 15
  cases i with
  | addReg | sub | subn | shr | shl =>
    intro hx
    cases h
    exact advance_writeFlagThenResult_vf_le_one s hx _ _
  | drw x y n =>
    rw [execDrw_vf h]
    exact flagByte_toNat_le_one _
  | ldByte | addByte | rnd | ldReg | orReg | andReg | xorReg =>
    exact fun hx => hkept (mt List.mem_singleton.mp hx.symm)
  | _ => exact hkept List.not_mem_nil

end Sys2Proof.Machine
end

section
/-! The display: what CLS and DRW leave on the screen (rules R100 to R104). -/

namespace Sys2Proof.Machine

theorem pixel_zero (row col : Nat) : pixel 0 row col = false := BitVec.getLsbD_zero

/-- Settles O27: the framebuffer shown is the zero vector. -/
theorem clsClearsEveryPixel : Obligations.ClsClearsEveryPixel := fun s =>
  ⟨_, exec_cls s, fun row _ col _ => pixel_zero row col, rfl, rfl⟩

/-- A pixel the sprite covers is on: the collision of a draw (rule R104). -/
def Collides (s : State) (x y : Reg) (n : Height) : Prop :=
  ∃ row col, SpriteCovers s x y n row col ∧ pixel s.fb row col = true

/-- What a draw that completed left in PC, Dirty, the pixels and VF. -/
theorem exec_drw_spec {s t : State} {x y : Reg} {n : Height} (h : exec (.drw x y n) s = .next t) :
    t.pc = s.pc + 2 ∧ t.dirty = true ∧
      (∀ row < 32, ∀ col < 64, (SpriteCovers s x y n row col → pixel t.fb row col = !pixel s.fb row col) ∧
        (¬ SpriteCovers s x y n row col → pixel t.fb row col = pixel s.fb row col)) ∧
      (Collides s x y n → readV t 15 = 1) ∧ (¬ Collides s x y n → readV t 15 = 0) := by
  obtain ⟨hpixels, hhit⟩ := blit_spec s x y n s.fb
  have hvf := execDrw_vf h
  have hfb : t.fb = (blit (readV s x) (readV s y) (spriteRows s n) s.fb).fb := by
    cases (execDrw_inside (execDrw_next h) x y).symm.trans h
    rfl
  refine ⟨pcAfterEveryInstruction _ _ _ h, exec_drw_dirty h, hfb ▸ hpixels, fun hc => ?_, fun hc => ?_⟩
  · rw [hvf, hhit.mpr hc]
    rfl
  · rw [hvf, Bool.eq_false_iff.mpr (mt hhit.mp hc)]
    rfl

/-- Settles O28: the extent check passes, and `exec_drw_spec` says the rest. -/
theorem drwInvertsExactlyTheCoveredPixels : Obligations.DrwInvertsExactlyTheCoveredPixels := by
  intro s x y n hfit
  obtain ⟨t, ht⟩ : ∃ t, exec (.drw x y n) s = .next t := ⟨_, execDrw_inside hfit x y⟩
  obtain ⟨hpc, hdirty, hpixels, hcollision, hclear⟩ := exec_drw_spec ht
  exact ⟨t, ht, hpc, hdirty, hpixels, fun hc => by rw [hcollision hc]; rfl, fun hc => by rw [hclear hc]; rfl⟩

/-- The cells of a sprite depend on its coordinates, I and memory alone. -/
theorem spriteCovers_congr {s t : State} {x y : Reg} {n : Height} (hx : readV t x = readV s x)
    (hy : readV t y = readV s y) (hi : t.i = s.i) (hmem : t.mem = s.mem) {row col : Nat} :
    SpriteCovers t x y n row col ↔ SpriteCovers s x y n row col := by
  simp only [SpriteCovers, hx, hy, hi, memRead_congr hmem]

/-- Settles O30: both draws cover the same cells, and each inverts them, so that a pixel covered comes back and a second
collision is a first draw of a pixel that was off. -/
theorem drawingTwiceErases : Obligations.DrawingTwiceErases := by
  intro s t x y n h hx hy
  have hi : t.i = s.i := (exec_withinFootprint h).index rfl
  have hcovers {row col : Nat} : SpriteCovers t x y n row col ↔ SpriteCovers s x y n row col :=
    spriteCovers_congr hx hy hi (exec_mem h)
  have hfit : t.i.toNat % 4096 + n.val ≤ 4096 := hi ▸ execDrw_next h
  obtain ⟨u, hu⟩ : ∃ u, exec (.drw x y n) t = .next u := ⟨_, execDrw_inside hfit x y⟩
  obtain ⟨-, -, hfirst, hcollision, hclear⟩ := exec_drw_spec h
  obtain ⟨-, -, hsecond, hcollision', hclear'⟩ := exec_drw_spec hu
  refine ⟨u, hu, pixels_ext fun row hr col hc => ?erased, fun hvf ⟨row, col, hcov⟩ => hcollision' ?collision,
    fun hnone => ?blank⟩
  case erased =>
    obtain ⟨hinvert, hkeep⟩ := hfirst row hr col hc
    obtain ⟨hinvert', hkeep'⟩ := hsecond row hr col hc
    by_cases hcov : SpriteCovers s x y n row col
    · rw [hinvert' (hcovers.mpr hcov), hinvert hcov, Bool.not_not]
    · rw [hkeep' (mt hcovers.mp hcov), hkeep hcov]
  case collision =>
    have hoff : pixel s.fb row col = false := by
      by_contra hon
      have hone := hcollision ⟨row, col, hcov, Bool.eq_true_of_not_eq_false hon⟩
      exact absurd (hone.symm.trans hvf) (by decide)
    obtain ⟨hr, hc⟩ := hcov.lt
    exact ⟨row, col, hcovers.mpr hcov, by rw [(hfirst row hr col hc).1 hcov, hoff, Bool.not_false]⟩
  case blank =>
    exact ⟨hclear fun ⟨row, col, hcov, _⟩ => hnone ⟨row, col, hcov⟩,
      hclear' fun ⟨row, col, hcov, _⟩ => hnone ⟨row, col, hcovers.mp hcov⟩⟩

end Sys2Proof.Machine
end

section
/-! The host's transactions on the whole state (rules R110 to R116, R131). -/

namespace Sys2Proof.Machine

/-! ### `construct` -/

theorem transact_construct (s : State) : transact .construct s = (construct s, .done) := rfl

/-- Settles O48: every field but the draw count is that of `State.reset`. -/
theorem constructGivesResetValues : Obligations.ConstructGivesResetValues := by
  intro s
  rw [transact_construct]
  refine ⟨fun r => ?registers, rfl, rfl, rfl, fun k => ?stack, fun a hlow hhigh => ?memory,
    fun row _ col _ => pixel_zero row col, rfl⟩
  case registers => exact Vector.getElem_replicate r.isLt
  case stack => exact Vector.getElem_replicate k.isLt
  case memory => rw [memRead_construct, Nat.mod_eq_of_lt hhigh, resetByte_eq_ite, if_neg (by omega)]

/-- Settles O49: after `construct` memory reads as its reset contents, whose first 80 bytes are the glyph table. -/
theorem constructWritesTheGlyphTable : Obligations.ConstructWritesTheGlyphTable := by
  intro s
  simp only [transact_construct, memRead_construct]
  decide

/-! ### `load_program` -/

theorem transact_loadProgram (bytes : List Byte) (s : State) :
    transact (.loadProgram bytes) s = settle s (loadProgram bytes s) := rfl

theorem memCopy_eq_with_mem (s : State) (a : Nat) (bs : List Byte) : { memCopy s a bs with mem := s.mem } = s := by
  induction bs generalizing s a with
  | nil => rfl
  | cons b bs ih => exact congrArg (fun t : State => { t with mem := s.mem }) (ih (memWrite s a b) (a + 1))

/-- Settles O50: a copy of an image that fits, which writes memory alone. -/
theorem loadProgramCopiesItsBytes : Obligations.LoadProgramCopiesItsBytes := by
  intro s bytes hwf hfit
  have ht := transact_loadProgram_fits hfit s
  refine ⟨_, ht, fun k hk => ?image, fun a ha hout => ?outside, memCopy_eq_with_mem s 0x200 bytes⟩
  case image => simpa only [ht] using memRead_loadProgram_image hwf hfit hk
  case outside => simpa only [ht] using memRead_loadProgram_outside hwf ha hout

theorem loadProgram_fits {bytes : List Byte} (h : bytes.length + 0x200 ≤ 4096) (s : State) :
    loadProgram bytes s = .next (memCopy s 0x200 bytes) :=
  if_pos ((imageWellFormed_iff bytes).mpr h)

/-- An instruction's bytes at the head of a loaded image are the word fetched at 0x200 (rules R34, R112). -/
theorem fetchWord_memCopy_encodeBytes {s : State} (hwf : s.mem.wf) (i : Instr) {rest : List Byte}
    (hfit : rest.length + 2 ≤ 3584) : fetchWord (memCopy s 0x200 (encodeBytes i ++ rest)) 0x0200 = encode i := by
  have hlen : (encodeBytes i ++ rest).length = rest.length + 2 := by simp [encodeBytes, bytesOfWord]
  have hend : 0x200 + (encodeBytes i ++ rest).length ≤ 4096 := by omega
  have hhi : memRead (memCopy s 0x200 (encodeBytes i ++ rest)) 0x200 = (encode i).extractLsb' 8 8 := by
    rw [memRead_memCopy hwf hend (by omega), if_pos (by omega)]
    rfl
  have hlo : memRead (memCopy s 0x200 (encodeBytes i ++ rest)) 0x201 = (encode i).extractLsb' 0 8 := by
    rw [memRead_memCopy hwf hend (by omega), if_pos (by omega)]
    rfl
  exact (congrArg₂ wordOfBytes hhi hlo).trans (wordOfBytes_bytesOfWord (encode i))

/-- Settles O8: the word fetched after the load is the encoding, which decodes to the instruction. -/
theorem loadedInstructionIsTheNextToRun : Obligations.LoadedInstructionIsTheNextToRun := by
  intro s i rest hwf hpc hfit
  have hlen : (encodeBytes i ++ rest).length = rest.length + 2 := by simp [encodeBytes, bytesOfWord]
  refine ⟨_, loadProgram_fits (by omega) s, step_of_fetchDecode_ok (fetchDecode_of_decodes ?_)⟩
  rw [memCopy_pc, hpc, fetchWord_memCopy_encodeBytes hwf i hfit, decodeWord_encode]

/-! ### The read transactions -/

/-- Settles O53: the pixels are untouched by `clearDirty`, and clearing twice is clearing once. -/
theorem consumeReturnsPixelsAndClearsDirty : Obligations.ConsumeReturnsPixelsAndClearsDirty := fun s =>
  ⟨clearDirty s, transact_consumeFramebuffer s, rfl, transact_consumeFramebuffer (clearDirty s), rfl⟩

theorem transact_readAccessor (sel : Selector) (s : State) :
    transact (.readAccessor sel) s = (s, .value (readAccessor s sel)) := rfl

theorem byte_zeroExtend_toNat (b : Byte) : (b.zeroExtend 16).toNat = b.toNat :=
  BitVec.toNat_setWidth_of_le (by decide)

theorem bitWord_toNat (b : Bool) : (bitWord b).toNat = if b then 1 else 0 := by
  cases b <;> rfl

/-- Settles O54: SP, the bytes and the bits fit the 16 bits of a value. -/
theorem accessorsReadTheState : Obligations.AccessorsReadTheState := by
  intro s sel
  refine ⟨_, transact_readAccessor sel s, ?_⟩
  cases sel with
  | v r => exact byte_zeroExtend_toNat _
  | mem a => exact byte_zeroExtend_toNat _
  | sp =>
    have := s.sp.isLt
    exact Nat.mod_eq_of_lt (by omega)
  | pixel row col => exact bitWord_toNat _
  | dirty => exact bitWord_toNat _
  | i | pc | stack => rfl

/-! ### Errors -/

theorem settle_of_error {s : State} {o : Host.Outcome State Fault Refusal} {k : Fault}
    (h : (settle s o).2 = .status (.error k)) : settle s o = (s, .status (.error k)) := by
  rw [settle_status_error_iff.mp h, settle]

/-- A transaction that reports an error kept the state (rule R131). -/
theorem transact_of_error {op : HostOp} {s : State} {k : Fault} (h : (transact op s).2 = .status (.error k)) :
    transact op s = (s, .status (.error k)) := by
  cases op with
  | loadProgram bytes =>
    rw [transact_loadProgram] at h ⊢
    exact settle_of_error h
  | step =>
    rw [transact_step] at h ⊢
    exact settle_of_error h
  | _ => cases h

/-- Settles O55: the state being kept, the repetition is the same transaction from the same state. -/
theorem errorsLeaveStateAndRepeat : Obligations.ErrorsLeaveStateAndRepeat := by
  intro op s k h
  have hkept : (transact op s).1 = s := by rw [transact_of_error h]
  exact ⟨hkept, by rw [hkept, transact_of_error h]⟩

end Sys2Proof.Machine
end

section
/-! The invariants of rule R24: what the host's transactions keep and what a step keeps. -/

namespace Sys2Proof.Machine

theorem hostInv_reset : HostInv State.reset :=
  ⟨⟨List.Pairwise.nil, nofun⟩, fun _ _ => rfl, by unfold IndexIsAddress; decide⟩

/-- Settles O45: memory is the empty list and the stack is empty. -/
theorem resetMeetsTheInvariant : Obligations.ResetMeetsTheInvariant :=
  ⟨hostInv_reset, fun k hk => absurd hk (Nat.not_lt_zero k.val)⟩

/-- The invariant reads memory and I alone. -/
theorem HostInv.congr {s t : State} (hs : HostInv s) (hmem : t.mem = s.mem) (hi : t.i = s.i) : HostInv t :=
  ⟨hmem ▸ hs.memory, fun a ha => hmem ▸ hs.lowRegion a ha, show t.i.toNat ≤ _ from hi ▸ hs.index⟩

/-- I is written by LD I alone, which zero-extends 12 bits (rules R12, R82). -/
theorem exec_indexIsAddress {i : Instr} {s t : State} (hs : IndexIsAddress s) (h : exec i s = .next t) :
    IndexIsAddress t := by
  have hkept := (exec_withinFootprint h).index
  cases i with
  | ldI nnn =>
    cases h
    have := nnn.isLt
    show (zextAddr nnn).toNat ≤ 0x0FFF
    rw [zextAddr_toNat]
    omega
  | _ => exact show t.i.toNat ≤ _ from hkept rfl ▸ hs

theorem exec_hostInv {i : Instr} {s t : State} (hs : HostInv s) (h : exec i s = .next t) : HostInv t :=
  have hmem := exec_mem h
  ⟨hmem ▸ hs.memory, fun a ha => hmem ▸ hs.lowRegion a ha, exec_indexIsAddress hs.index h⟩

/-- A step that completes runs the instruction its word decodes to. -/
theorem step_next {s t : State} (h : step s = .next t) :
    ∃ i, decodeWord (fetchWord s s.pc) = .ok i ∧ exec i s = .next t := by
  cases hw : decodeWord (fetchWord s s.pc) with
  | ok i => exact ⟨i, rfl, (step_of_fetchDecode_ok (fetchDecode_of_decodes hw)).symm.trans h⟩
  | error e => cases (step_of_fetchDecode_error (fetchDecode_of_rejects hw)).symm.trans h

/-- A slot occupied after an instruction held a value before, or is the one a CALL has just filled with the address after its
own (rules R15, R16). -/
theorem exec_occupied_slot {i : Instr} {s t : State} (h : exec i s = .next t) {k : Fin 16} (hk : k.val < t.sp.val) :
    (k.val < s.sp.val ∧ t.stack[k] = s.stack[k]) ∨ ((∃ nnn, i = .call nnn) ∧ t.stack[k] = s.pc + 2) := by
  by_cases hf : (footprint i).stack = false
  · obtain ⟨hsp, hstack⟩ := (exec_withinFootprint h).stack hf
    exact .inl ⟨hsp ▸ hk, hstack k⟩
  · rcases footprint_stack hf with rfl | ⟨nnn, rfl⟩
    · obtain ⟨j, hj⟩ := execRet_next h
      obtain ⟨u, hu, hsp, -, hstack, -⟩ := execRet_slot s j hj
      cases hu.symm.trans h
      exact .inl ⟨by omega, by rw [hstack]⟩
    · obtain ⟨j, hj⟩ := execCall_next h
      obtain ⟨u, hu, hsp, -, hstack, -⟩ := execCall_slot s nnn j hj
      cases hu.symm.trans h
      by_cases hkj : k = j
      · exact .inr ⟨⟨nnn, rfl⟩, by rw [hstack, if_pos hkj]⟩
      · have := Fin.val_ne_of_ne hkj
        exact .inl ⟨by omega, by rw [hstack, if_neg hkj]⟩

/-- Settles O46: memory is as before, I is kept or zero-extended, and a newly occupied slot points after the CALL that filled
it. -/
theorem stepKeepsTheInvariant : Obligations.StepKeepsTheInvariant := by
  intro s t hs hstep
  obtain ⟨i, hdecode, hexec⟩ := step_next hstep
  refine ⟨exec_hostInv hs.host hexec, fun k hk => ?_⟩
  rw [fetchWord_congr (exec_mem hexec)]
  rcases exec_occupied_slot hexec hk with ⟨hbefore, hslot⟩ | ⟨⟨nnn, hcall⟩, hslot⟩
  · rw [hslot]
    exact hs.slots k hbefore
  · rw [hslot, BitVec.add_sub_cancel]
    exact ⟨nnn, hcall ▸ hdecode⟩

/-- A transaction that can fail keeps the state or completes. -/
theorem settle_hostInv {s : State} {o : Host.Outcome State Fault Refusal} (hs : HostInv s)
    (ho : ∀ t, o = .next t → HostInv t) : HostInv (settle s o).1 := by
  cases o with
  | next t => exact ho t rfl
  | fault | refused => exact hs

/-- A load writes from 0x200 on, so that the low region is kept (rules R38, R112). -/
theorem loadProgram_hostInv {bytes : List Byte} {s t : State} (hs : HostInv s) (h : loadProgram bytes s = .next t) :
    HostInv t := by
  by_cases hfit : bytes.length + 0x200 ≤ 4096
  · cases (loadProgram_fits hfit s).symm.trans h
    refine ⟨memCopy_wf hs.memory _ _, fun a (ha : a < 0x200) => ?_, ?_⟩
    · rw [memCopy_read hs.memory (show 0x200 + bytes.length ≤ 4096 by omega), if_neg (by omega)]
      exact hs.lowRegion a ha
    · rw [IndexIsAddress, memCopy_i]
      exact hs.index
  · rw [loadProgram, if_neg (mt (imageWellFormed_iff bytes).mp hfit)] at h
    cases h

theorem transact_hostInv (op : HostOp) {s : State} (hs : HostInv s) : HostInv (transact op s).1 := by
  cases op with
  | construct => exact hostInv_reset.congr (construct_mem s) (construct_i s)
  | loadProgram bytes =>
    rw [transact_loadProgram]
    exact settle_hostInv hs fun _ => loadProgram_hostInv hs
  | step =>
    rw [transact_step]
    refine settle_hostInv hs fun t ht => ?_
    obtain ⟨i, -, hexec⟩ := step_next ht
    exact exec_hostInv hs hexec
  | consumeFramebuffer => exact hs.congr rfl rfl
  | framebufferChanged | readAccessor => exact hs

/-- Settles O47: reset has the invariant, and every transaction keeps it. -/
theorem hostTransactionsKeepTheInvariant : Obligations.HostTransactionsKeepTheInvariant := by
  refine ⟨fun op _ hs => transact_hostInv op hs, fun s hreach => ?_⟩
  induction hreach with
  | reset => exact hostInv_reset
  | transact op _ ih => exact transact_hostInv op ih

end Sys2Proof.Machine
end

section
/-! The end of a run (rule R149, the spec's decision D20). -/

namespace Sys2Proof.Machine

/-- The recogniser of a spin as numbers: a JP can name PC exactly when PC fits its operand. -/
theorem spins_iff_fetchWord (s : State) :
    spins s = true ↔ s.pc.toNat < 0x1000 ∧ (fetchWord s s.pc).toNat = 0x1000 + s.pc.toNat := by
  rw [spins_iff]
  constructor
  · rintro ⟨nnn, hfetch, hpc⟩
    have hword := (fetchDecode_eq_jp_iff s nnn).mp hfetch
    rw [← hpc, zextAddr_toNat]
    exact ⟨nnn.isLt, hpc.symm ▸ hword⟩
  · rintro ⟨hlt, hword⟩
    have hnnn : (BitVec.ofNat 12 s.pc.toNat).toNat = s.pc.toNat := Nat.mod_eq_of_lt hlt
    refine ⟨BitVec.ofNat 12 s.pc.toNat, (fetchDecode_eq_jp_iff s _).mpr ?_, BitVec.eq_of_toNat_eq ?_⟩
    · rw [hnnn, hword]
    · rw [zextAddr_toNat, hnnn]

/-- Settles O56: the obligation's number is that of the word `fetchWord` reads at PC. -/
theorem spinIsAJumpToItself : Obligations.SpinIsAJumpToItself := by
  intro s
  rw [← fetchWord_toNat]
  refine ⟨spins_iff_fetchWord s, fun hspin => ?_⟩
  rw [transact_step, step_of_spins hspin, settle]

theorem step_ne_refused (s : State) (r : Refusal) : step s ≠ .refused r := by
  intro h
  cases hw : fetchDecode s with
  | ok i => exact exec_ne_refused i s r ((step_of_fetchDecode_ok hw).symm.trans h)
  | error k => cases (step_of_fetchDecode_error hw).symm.trans h

/-- Settles O58: each answer of `runEnd` fixes whether the run spins and how the next step ends. -/
theorem runEndIsASpinOrAFault : Obligations.RunEndIsASpinOrAFault := by
  intro s
  have hend := runEnd_spec s
  cases hrun : runEnd s with
  | none =>
    rw [hrun] at hend
    obtain ⟨hspin, t, hstep⟩ := hend
    simp [hspin, hstep]
  | some e =>
    rw [hrun] at hend
    cases e with
    | spin => simp [show spins s = true from hend, step_of_spins hend]
    | fault k =>
      have hstep : step s = .fault k := hend
      have hspin : spins s = false := Bool.eq_false_iff.mpr fun h => by cases (step_of_spins h).symm.trans hstep
      simp [hspin, hstep]
    | notExecuted r => exact absurd hend (step_ne_refused s r)

/-- Any number of steps leaves an ended run where it is. -/
theorem transactAll_steps_ended {s : State} {e : RunEnd} (h : runEnd s = some e) (j : Nat) :
    transactAll (List.replicate j .step) s = s := by
  induction j with
  | zero => rfl
  | succ j ih =>
    rw [List.replicate_succ, transactAll, step_of_runEnd h]
    exact ih

/-- A run from `s` ends after `m` steps, and not before, in `t`, whatever the bound of the loop from `m` on. -/
structure EndsAfter (m : Nat) (s t : State) (e : RunEnd) : Prop where
  before : ∀ j < m, runEnd (transactAll (List.replicate j .step) s) = none
  ended : runEnd t = some e
  after : ∀ j ≥ m, transactAll (List.replicate j .step) s = t ∧ runToEnd j s = (t, some e)

theorem endsAfter_zero {s : State} {e : RunEnd} (h : runEnd s = some e) : EndsAfter 0 s s e :=
  ⟨nofun, h, fun j _ => ⟨transactAll_steps_ended h j, runToEnd_ended h j⟩⟩

/-- A run that goes on ends one step later than the run from its next state. -/
theorem EndsAfter.succ {m : Nat} {s t : State} {e : RunEnd} (hgoing : runEnd s = none)
    (h : EndsAfter m (transact .step s).1 t e) : EndsAfter (m + 1) s t e := by
  refine ⟨fun j hj => ?before, h.ended, fun j hj => ?after⟩
  case before =>
    cases j with
    | zero => exact hgoing
    | succ j => exact h.before j (Nat.lt_of_succ_lt_succ hj)
  case after =>
    cases j with
    | zero => exact absurd hj (Nat.not_succ_le_zero m)
    | succ j =>
      rw [runToEnd_going hgoing]
      exact h.after j (Nat.le_of_succ_le_succ hj)

/-- The driving loop answers with an end only where the run has one, within its bound. -/
theorem endsAfter_of_runToEnd {k : Nat} {s t : State} {e : RunEnd} (h : runToEnd k s = (t, some e)) :
    ∃ m ≤ k, EndsAfter m s t e := by
  induction k generalizing s with
  | zero =>
    obtain ⟨rfl, hend⟩ := Prod.mk.inj h
    exact ⟨0, Nat.le_refl 0, endsAfter_zero hend⟩
  | succ k ih =>
    cases hend : runEnd s with
    | some e' =>
      rw [runToEnd_ended hend] at h
      cases h
      exact ⟨0, Nat.zero_le _, endsAfter_zero hend⟩
    | none =>
      rw [runToEnd_going hend] at h
      obtain ⟨m, hm, hafter⟩ := ih h
      exact ⟨m + 1, Nat.succ_le_succ hm, hafter.succ hend⟩

/-- Settles O59, by induction on the bound of the loop in `endsAfter_of_runToEnd`. -/
theorem endedRunStaysAsItIs : Obligations.EndedRunStaysAsItIs := by
  intro k s t e h
  obtain ⟨m, hm, hbefore, hended, hafter⟩ := endsAfter_of_runToEnd h
  exact ⟨m, hm, hbefore, hended, hafter⟩

end Sys2Proof.Machine
end

section
/-! What an instruction does not see: the state with other contents in pieces it neither reads nor writes (rules R12, R16,
R19, R23, R119). -/

namespace Sys2Proof.Machine

/-! ### The effect of RET and CALL as one update -/

theorem exec_ret (s : State) : exec .ret s = execRet s := rfl

theorem exec_call (nnn : Addr) (s : State) : exec (.call nnn) s = execCall nnn s := rfl

theorem execRet_eq (s : State) (k : Fin 16) (h : s.sp.val = k.val + 1) :
    execRet s = .next { s with sp := k.castSucc, pc := s.stack[k] } := by
  simp [execRet, pop, h, setPc, Fin.castSucc, Fin.castAdd, Fin.castLE]

theorem execCall_eq (s : State) (nnn : Addr) (k : Fin 16) (h : s.sp.val = k.val) :
    execCall nnn s = .next { s with stack := s.stack.set k (s.pc + 2), sp := k.succ, pc := zextAddr nnn } := by
  have hne : ¬ k.val = 16 := by omega
  simp [execCall, push, h, setPc, hne, Fin.succ]

/-! ### Other contents -/

/-- Other contents for the pieces of state that only some instructions see. -/
structure Contents where
  i : Option Word := none
  stack : Option (Vector Word 16) := none
  dirty : Option Bool := none
  draws : Option Nat := none

/-- The state with these contents, where they are given. -/
def withContents (c : Contents) (s : State) : State :=
  { s with
    i := c.i.getD s.i
    stack := c.stack.getD s.stack
    dirty := c.dirty.getD s.dirty
    draws := c.draws.getD s.draws }

theorem skipIf_withContents (b : Bool) (c : Contents) (s : State) :
    skipIf b (withContents c s) = withContents c (skipIf b s) := by
  cases b <;> rfl

/-- The rows of a sprite depend on `I mod 4096` and memory alone (rule R37). -/
theorem spriteRows_congr {s t : State} (hi : t.i.toNat % 4096 = s.i.toNat % 4096) (hmem : t.mem = s.mem) (n : Height) :
    spriteRows t n = spriteRows s n := by
  have hbase : spriteBase t = spriteBase s := hi
  simp only [spriteRows, hbase, memRead_congr hmem]

/-- Contents outside the footprint of an instruction pass through it, if a DRW finds `I mod 4096` as it was. -/
theorem exec_withContents {i : Instr} {s : State} (c : Contents) (hindex : (footprint i).index = true → c.i = none)
    (hstack : (footprint i).stack = true → c.stack = none) (hdisplay : (footprint i).display = true → c.dirty = none)
    (hdraws : (footprint i).draws = true → c.draws = none)
    (hdrw : ∀ x y n, i = .drw x y n → (withContents c s).i.toNat % 4096 = s.i.toNat % 4096) :
    exec i (withContents c s) = onNext (withContents c) (exec i s) := by
  obtain ⟨j, stack, dirty, draws⟩ := c
  cases i with
  | seByte | sneByte | seReg | sneReg => exact congrArg Host.Outcome.next (skipIf_withContents _ _ s)
  | ldI =>
    cases hindex rfl
    rfl
  | rnd =>
    cases hdraws rfl
    rfl
  | cls =>
    cases hdisplay rfl
    rfl
  | drw x y n =>
    cases hdisplay rfl
    have hi := hdrw x y n rfl
    rcases Nat.lt_or_ge 4096 (s.i.toNat % 4096 + n.val) with outside | inside
    · rw [exec_of_checkFails (.drw outside), exec_of_checkFails (.drw (hi ▸ outside))]
      rfl
    · rw [exec_drw, exec_drw, execDrw_inside inside, execDrw_inside (hi ▸ inside), spriteRows_congr hi rfl]
      rfl
  | ret =>
    cases hstack rfl
    rcases sp_empty_or_slot s with empty | ⟨k, hk⟩
    · rw [exec_of_checkFails (.ret empty)]
      exact exec_of_checkFails (.ret empty)
    · rw [exec_ret, exec_ret, execRet_eq s k hk, execRet_eq (withContents _ s) k hk]
      rfl
  | call nnn =>
    cases hstack rfl
    rcases sp_full_or_slot s with full | ⟨k, hk⟩
    · rw [exec_of_checkFails (.call full)]
      exact exec_of_checkFails (.call full)
    · rw [exec_call, exec_call, execCall_eq s nnn k hk, execCall_eq (withContents _ s) nnn k hk]
      rfl
  | _ => rfl

/-! ### The index register -/

/-- Settles O41: `exec_withContents` with another I, which LD I overwrites. -/
theorem indexWrittenByLdIReadByDrw : Obligations.IndexWrittenByLdIReadByDrw := by
  intro i s j
  have hpass (hindex : (footprint i).index = false)
      (hdrw : ∀ x y n, i = .drw x y n → j.toNat % 4096 = s.i.toNat % 4096) :
      exec i { s with i := j } = onNext (fun t => { t with i := j }) (exec i s) :=
    exec_withContents { i := some j } (fun h => by rw [hindex] at h; cases h) (fun _ => rfl) (fun _ => rfl)
      (fun _ => rfl) hdrw
  have hkept (hindex : (footprint i).index = false) (t : State) (h : exec i s = .next t) : t.i = s.i :=
    (exec_withinFootprint h).index hindex
  cases i with
  | ldI nnn => exact ⟨rfl, _, exec_ldI nnn s, zextAddr_toNat nnn⟩
  | drw x y n => exact ⟨fun hj => hpass rfl fun _ _ _ _ => hj, hkept rfl⟩
  | _ => exact ⟨hpass rfl nofun, hkept rfl⟩

/-! ### Dirty -/

theorem fetchDecode_congr {s t : State} (hmem : t.mem = s.mem) (hpc : t.pc = s.pc) : fetchDecode t = fetchDecode s := by
  simp only [fetchDecode, hpc, fetchWord_congr hmem]

/-- CLS and DRW overwrite Dirty; the other instructions let it pass. -/
theorem exec_with_dirty (i : Instr) (s : State) (d : Bool) :
    exec i { s with dirty := d } = exec i s ∨
      exec i { s with dirty := d } = onNext (fun t => { t with dirty := d }) (exec i s) := by
  by_cases hdisplay : (footprint i).display = false
  · exact .inr <| exec_withContents { dirty := some d } (fun _ => rfl) (fun _ => rfl)
      (fun h => by rw [hdisplay] at h; cases h) (fun _ => rfl) fun _ _ _ _ => rfl
  · rcases footprint_display hdisplay with rfl | ⟨x, y, n, rfl⟩
    · exact .inl rfl
    · exact .inl rfl

/-- Settles O42: FETCH and DECODE read memory and PC, and what an instruction leaves differs in Dirty at most. -/
theorem dirtyIsInvisibleToThePrograms : Obligations.DirtyIsInvisibleToThePrograms := by
  intro s d
  have hfetch : fetchDecode { s with dirty := d } = fetchDecode s := fetchDecode_congr rfl rfl
  cases hi : fetchDecode s with
  | error k => rw [step_of_fetchDecode_error hi, step_of_fetchDecode_error (hfetch.trans hi)]
  | ok i =>
    rw [step_of_fetchDecode_ok hi, step_of_fetchDecode_ok (hfetch.trans hi)]
    rcases exec_with_dirty i s d with h | h
    · rw [h]
    · rw [h]
      cases exec i s <;> rfl

/-! ### The random input -/

/-- Settles O43: `exec_withContents` with another draw count, which lies in the footprint of RND alone. -/
theorem randomInputReadOnlyByRnd : Obligations.RandomInputReadOnlyByRnd := by
  intro i s k hne
  have hdraws : (footprint i).draws = false := by
    cases i with
    | rnd x kk => exact absurd rfl (hne x kk)
    | _ => rfl
  exact exec_withContents { draws := some k } (fun _ => rfl) (fun _ => rfl) (fun _ => rfl)
    (fun h => by rw [hdraws] at h; cases h) fun _ _ _ _ => rfl

/-! ### Stale stack slots -/

/-- States that agree but for stale slots differ in the contents of the stack alone. -/
theorem AgreeButStaleSlots.eq_with_stack {s t : State} (h : AgreeButStaleSlots s t) : t = { s with stack := t.stack } := by
  obtain ⟨hv, hi, hpc, hsp, -, hmem, hfb, hdirty, hdraws⟩ := h
  cases s
  cases t
  simp_all

/-- The state with another stack agrees but for stale slots when the live slots are the same. -/
theorem agreeButStaleSlots_with_stack {s : State} {stack : Vector Word 16}
    (h : ∀ k : Fin 16, k.val < s.sp.val → s.stack[k] = stack[k]) : AgreeButStaleSlots s { s with stack := stack } :=
  ⟨rfl, rfl, rfl, rfl, h, rfl, rfl, rfl, rfl⟩

/-- The checks of EXECUTE read SP and I. -/
theorem CheckFails.of_agree {i : Instr} {s t : State} {k : Fault} (hc : CheckFails i s k) (h : AgreeButStaleSlots s t) :
    CheckFails i t k := by
  cases hc with
  | ret empty => exact .ret (h.sp ▸ empty)
  | call full => exact .call (h.sp ▸ full)
  | drw outside => exact .drw (h.i ▸ outside)

/-- An instruction that completes from one of two agreeing states completes from the other, and they agree again: CALL fills
the same slot with the same address, and the slot RET pops is live. -/
theorem exec_of_agree {i : Instr} {s t s' : State} (h : AgreeButStaleSlots s t) (hexec : exec i s = .next s') :
    ∃ t', exec i t = .next t' ∧ AgreeButStaleSlots s' t' := by
  have hlive := h.live
  rw [h.eq_with_stack]
  generalize t.stack = stack at hlive
  by_cases hfoot : (footprint i).stack = false
  · have hpass : exec i { s with stack := stack } = onNext (fun u => { u with stack := stack }) (exec i s) :=
      exec_withContents { stack := some stack } (fun _ => rfl) (fun h => by rw [hfoot] at h; cases h)
        (fun _ => rfl) (fun _ => rfl) fun _ _ _ _ => rfl
    obtain ⟨hsp, hslots⟩ := (exec_withinFootprint hexec).stack hfoot
    rw [hpass, hexec]
    exact ⟨_, rfl, agreeButStaleSlots_with_stack fun k hk => (hslots k).trans (hlive k (hsp ▸ hk))⟩
  · rcases footprint_stack hfoot with rfl | ⟨nnn, rfl⟩
    · obtain ⟨k, hk⟩ := execRet_next hexec
      cases (execRet_eq s k hk).symm.trans hexec
      have hbelow (j : Fin 16) (hj : j.val < k.val) : j.val < s.sp.val := by omega
      exact ⟨_, execRet_eq { s with stack := stack } k hk, rfl, rfl, hlive k (by omega), rfl,
        fun j hj => hlive j (hbelow j hj), rfl, rfl, rfl, rfl⟩
    · obtain ⟨k, hk⟩ := execCall_next hexec
      cases (execCall_eq s nnn k hk).symm.trans hexec
      refine ⟨_, execCall_eq { s with stack := stack } nnn k hk, rfl, rfl, rfl, rfl, fun j hj => ?_, rfl, rfl, rfl, rfl⟩
      have hle : j.val < k.val + 1 := hj
      simp only [Fin.getElem_fin, Vector.getElem_set]
      split
      next => rfl
      next hne => exact hlive j (by omega)

/-- Settles O44: both states fetch the same instruction, whose check fails in both or in neither. -/
theorem staleStackSlotsAreUnobservable : Obligations.StaleStackSlotsAreUnobservable := by
  intro s t h
  have hfetch : fetchDecode t = fetchDecode s := fetchDecode_congr h.mem.symm h.pc.symm
  cases hi : fetchDecode s with
  | error k =>
    rw [step_of_fetchDecode_error hi, step_of_fetchDecode_error (hfetch.trans hi)]
    exact ⟨fun _ hnext => (by cases hnext), fun _ hk => hk⟩
  | ok i =>
    rw [step_of_fetchDecode_ok hi, step_of_fetchDecode_ok (hfetch.trans hi)]
    exact ⟨fun _ => exec_of_agree h, fun _ hk => exec_of_checkFails ((checkFails_of_exec hk).of_agree h)⟩

end Sys2Proof.Machine
end
